-- ==== Sys2Proof/Word.lean ====
section
/-! DEFINITION. The word types of the engine (spec/00_scope.md R8): every value is an unsigned integer
of a stated width. -/

namespace Sys2Proof

/-- Registers, memory cells, timers and the immediate kk: 8 bits (00_scope.md R8). -/
abbrev Byte := BitVec 8

/-- I, PC, stack entries and opcode words: 16 bits (00_scope.md R8, 30_encoding.md R70). -/
abbrev Word := BitVec 16

/-- The 12-bit address operand nnn (00_scope.md R8, 30_encoding.md R71). -/
abbrev Addr12 := BitVec 12

/-- The index of one of the 16 general registers (10_state.md R20). -/
abbrev RegIdx := Fin 16

/-- The index of one of the 16 keys (10_state.md R32). -/
abbrev KeyIdx := Fin 16

end Sys2Proof
end

