-- ==== Sys2Proof/Syntax.lean ====
section
/-! DEFINITION. The 35 instructions of spec/30_encoding.md R74, one constructor per row of
spec/opcode_table.json, in the table's order. -/

namespace Sys2Proof

/-- An instruction with its operand fields (30_encoding.md R71, R72): `x`, `y` name registers, `kk` is the
8-bit immediate, `nnn` the 12-bit address, `n` the number of sprite rows. SHR and SHL carry `y`, which is
decoded and not used (R72). -/
inductive Instr where
  | cls
  | ret
  | sysAddr   (nnn : Addr12)
  | jpAddr    (nnn : Addr12)
  | callAddr  (nnn : Addr12)
  | seVxKk    (x : RegIdx) (kk : Byte)
  | sneVxKk   (x : RegIdx) (kk : Byte)
  | seVxVy    (x y : RegIdx)
  | ldVxKk    (x : RegIdx) (kk : Byte)
  | addVxKk   (x : RegIdx) (kk : Byte)
  | ldVxVy    (x y : RegIdx)
  | orVxVy    (x y : RegIdx)
  | andVxVy   (x y : RegIdx)
  | xorVxVy   (x y : RegIdx)
  | addVxVy   (x y : RegIdx)
  | subVxVy   (x y : RegIdx)
  | shrVx     (x y : RegIdx)
  | subnVxVy  (x y : RegIdx)
  | shlVx     (x y : RegIdx)
  | sneVxVy   (x y : RegIdx)
  | ldIAddr   (nnn : Addr12)
  | jpV0Addr  (nnn : Addr12)
  | rndVxKk   (x : RegIdx) (kk : Byte)
  | drwVxVyN  (x y : RegIdx) (n : Fin 16)
  | skpVx     (x : RegIdx)
  | sknpVx    (x : RegIdx)
  | ldVxDt    (x : RegIdx)
  | ldVxK     (x : RegIdx)
  | ldDtVx    (x : RegIdx)
  | ldStVx    (x : RegIdx)
  | addIVx    (x : RegIdx)
  | ldFVx     (x : RegIdx)
  | ldBVx     (x : RegIdx)
  | ldMemVx   (x : RegIdx)
  | ldVxMem   (x : RegIdx)
deriving DecidableEq, Repr

end Sys2Proof
end

