-- ==== Sys2Proof/WellFormed.lean ====
section
/-! DEFINITION. Which instruction terms stand for a word of the machine. The operand types already bound
every field (spec/30_encoding.md R73: all values of a field are legal); the one check left is SYS. -/

namespace Sys2Proof

/-- The addresses a SYS cannot have: 0x00E0 and 0x00EE "decode as CLS and RET and never as SYS"
(30_encoding.md R75). -/
def sysAddressFree (nnn : Addr12) : Bool := nnn != 0x0E0#12 && nnn != 0x0EE#12

/-- The instruction is the meaning of some word of the opcode map (30_encoding.md R74, R75). -/
def Instr.wellFormed (i : Instr) : Bool :=
  match i with
  | .sysAddr nnn => sysAddressFree nnn
  | .cls | .ret | .jpAddr _ | .callAddr _ | .seVxKk _ _ | .sneVxKk _ _ | .seVxVy _ _ => true
  | .ldVxKk _ _ | .addVxKk _ _ | .ldVxVy _ _ | .orVxVy _ _ | .andVxVy _ _ | .xorVxVy _ _ => true
  | .addVxVy _ _ | .subVxVy _ _ | .shrVx _ _ | .subnVxVy _ _ | .shlVx _ _ | .sneVxVy _ _ => true
  | .ldIAddr _ | .jpV0Addr _ | .rndVxKk _ _ | .drwVxVyN _ _ _ | .skpVx _ | .sknpVx _ => true
  | .ldVxDt _ | .ldVxK _ | .ldDtVx _ | .ldStVx _ | .addIVx _ | .ldFVx _ | .ldBVx _ => true
  | .ldMemVx _ | .ldVxMem _ => true

end Sys2Proof
end

