-- ==== Sys2Proof/Decode.lean ====
section
/-! DEFINITION. The decoder of spec/30_encoding.md (fields R71, table R74, first match R75, total R76) and,
after it, the encoder written from the same table. -/

namespace Sys2Proof

/-! ## Fields (30_encoding.md R71): extracted from every word, "Pure, stateless, no side effects" -/

/-- x, bits 11..8. -/
def fieldX (w : Word) : RegIdx := Fin.ofNat 16 (w.toNat / 256)

/-- y, bits 7..4. -/
def fieldY (w : Word) : RegIdx := Fin.ofNat 16 (w.toNat / 16)

/-- n, bits 3..0. -/
def fieldN (w : Word) : Fin 16 := Fin.ofNat 16 w.toNat

/-- kk, bits 7..0. -/
def fieldKk (w : Word) : Byte := w.setWidth 8

/-- nnn, bits 11..0. -/
def fieldNnn (w : Word) : Addr12 := w.setWidth 12

/-! ## The opcode map (30_encoding.md R74) -/

/-- One entry of the dispatch table: it is selected by a word `w` with `w & mask = pattern`, and `build`
reads the operand fields its format uses (R72). -/
structure Row where
  pattern : Word
  mask    : Word
  build   : Word → Instr

/-- Rows 1 to 10 of R74. -/
def rowsA : List Row :=
  [ ⟨0x00E0#16, 0xFFFF#16, fun _ => .cls⟩,
    ⟨0x00EE#16, 0xFFFF#16, fun _ => .ret⟩,
    ⟨0x0000#16, 0xF000#16, fun w => .sysAddr (fieldNnn w)⟩,
    ⟨0x1000#16, 0xF000#16, fun w => .jpAddr (fieldNnn w)⟩,
    ⟨0x2000#16, 0xF000#16, fun w => .callAddr (fieldNnn w)⟩,
    ⟨0x3000#16, 0xF000#16, fun w => .seVxKk (fieldX w) (fieldKk w)⟩,
    ⟨0x4000#16, 0xF000#16, fun w => .sneVxKk (fieldX w) (fieldKk w)⟩,
    ⟨0x5000#16, 0xF00F#16, fun w => .seVxVy (fieldX w) (fieldY w)⟩,
    ⟨0x6000#16, 0xF000#16, fun w => .ldVxKk (fieldX w) (fieldKk w)⟩,
    ⟨0x7000#16, 0xF000#16, fun w => .addVxKk (fieldX w) (fieldKk w)⟩ ]

/-- Rows 11 to 20 of R74. -/
def rowsB : List Row :=
  [ ⟨0x8000#16, 0xF00F#16, fun w => .ldVxVy (fieldX w) (fieldY w)⟩,
    ⟨0x8001#16, 0xF00F#16, fun w => .orVxVy (fieldX w) (fieldY w)⟩,
    ⟨0x8002#16, 0xF00F#16, fun w => .andVxVy (fieldX w) (fieldY w)⟩,
    ⟨0x8003#16, 0xF00F#16, fun w => .xorVxVy (fieldX w) (fieldY w)⟩,
    ⟨0x8004#16, 0xF00F#16, fun w => .addVxVy (fieldX w) (fieldY w)⟩,
    ⟨0x8005#16, 0xF00F#16, fun w => .subVxVy (fieldX w) (fieldY w)⟩,
    ⟨0x8006#16, 0xF00F#16, fun w => .shrVx (fieldX w) (fieldY w)⟩,
    ⟨0x8007#16, 0xF00F#16, fun w => .subnVxVy (fieldX w) (fieldY w)⟩,
    ⟨0x800E#16, 0xF00F#16, fun w => .shlVx (fieldX w) (fieldY w)⟩,
    ⟨0x9000#16, 0xF00F#16, fun w => .sneVxVy (fieldX w) (fieldY w)⟩ ]

/-- Rows 21 to 26 of R74. -/
def rowsC : List Row :=
  [ ⟨0xA000#16, 0xF000#16, fun w => .ldIAddr (fieldNnn w)⟩,
    ⟨0xB000#16, 0xF000#16, fun w => .jpV0Addr (fieldNnn w)⟩,
    ⟨0xC000#16, 0xF000#16, fun w => .rndVxKk (fieldX w) (fieldKk w)⟩,
    ⟨0xD000#16, 0xF000#16, fun w => .drwVxVyN (fieldX w) (fieldY w) (fieldN w)⟩,
    ⟨0xE09E#16, 0xF0FF#16, fun w => .skpVx (fieldX w)⟩,
    ⟨0xE0A1#16, 0xF0FF#16, fun w => .sknpVx (fieldX w)⟩ ]

/-- Rows 27 to 35 of R74. -/
def rowsD : List Row :=
  [ ⟨0xF007#16, 0xF0FF#16, fun w => .ldVxDt (fieldX w)⟩,
    ⟨0xF00A#16, 0xF0FF#16, fun w => .ldVxK (fieldX w)⟩,
    ⟨0xF015#16, 0xF0FF#16, fun w => .ldDtVx (fieldX w)⟩,
    ⟨0xF018#16, 0xF0FF#16, fun w => .ldStVx (fieldX w)⟩,
    ⟨0xF01E#16, 0xF0FF#16, fun w => .addIVx (fieldX w)⟩,
    ⟨0xF029#16, 0xF0FF#16, fun w => .ldFVx (fieldX w)⟩,
    ⟨0xF033#16, 0xF0FF#16, fun w => .ldBVx (fieldX w)⟩,
    ⟨0xF055#16, 0xF0FF#16, fun w => .ldMemVx (fieldX w)⟩,
    ⟨0xF065#16, 0xF0FF#16, fun w => .ldVxMem (fieldX w)⟩ ]

/-- The 35 rows of R74 in registration order. -/
def opcodeMap : List Row := rowsA ++ (rowsB ++ (rowsC ++ rowsD))

/-- `w` selects the row: `(w & mask) == match` (R74). -/
def Row.selects (r : Row) (w : Word) : Bool := w &&& r.mask == r.pattern

/-- The instruction of the first row that `w` selects, scanning in registration order (R75); none for an
unknown word (R76, R77). -/
def decode (w : Word) : Option Instr :=
  opcodeMap.findSome? fun r => if r.selects w then some (r.build w) else none

/-! ## Words and bytes -/

/-- The word whose first byte in memory is `hi`: instruction words are big-endian (20_memory.md R53). -/
def wordOfBytes (hi lo : Byte) : Word := hi ++ lo

/-- The byte at the lower address of a word (20_memory.md R53). -/
def highByte (w : Word) : Byte := w.extractLsb' 8 8

/-- The byte at the higher address of a word (20_memory.md R53). -/
def lowByte (w : Word) : Byte := w.setWidth 8

/-- Why bytes give no instruction. -/
inductive DecodeError where
  /-- fewer than the two bytes every instruction has (30_encoding.md R70) -/
  | truncated
  /-- the word selects no row (30_encoding.md R76, R77) -/
  | unknownOpcode (w : Word)
deriving DecidableEq, Repr

/-- Decoding of any bytes: the first instruction and the bytes after it. -/
def decodeBytes : List Byte → Except DecodeError (Instr × List Byte)
  | hi :: lo :: rest =>
    match decode (wordOfBytes hi lo) with
    | some i => .ok (i, rest)
    | none   => .error (.unknownOpcode (wordOfBytes hi lo))
  | [] | [_] => .error .truncated

/-- The two bytes, as memory holds them, of the table's word `w` whose lowest `nbits` bits count; every bit
above is 0. -/
def tableWordBytes (nbits w : Nat) : List Byte :=
  [highByte (BitVec.ofNat 16 (w % 2 ^ min nbits 16)), lowByte (BitVec.ofNat 16 (w % 2 ^ min nbits 16))]

/-- The instruction the decoder reads from a word numbered as spec/opcode_table.json numbers it. -/
def decodeTableWord (nbits w : Nat) : Option Instr :=
  match decodeBytes (tableWordBytes nbits w) with
  | .ok (i, _) => some i
  | .error _   => none

/-! ## The encoder, from the same table (30_encoding.md R72, R74) -/

/-- Format ADDR: `c n n n`. -/
def encAddr (c : Nat) (nnn : Addr12) : Word := BitVec.ofNat 16 (c * 4096 + nnn.toNat)

/-- Format XKK: `c x k k`. -/
def encXkk (c : Nat) (x : RegIdx) (kk : Byte) : Word := BitVec.ofNat 16 (c * 4096 + x.val * 256 + kk.toNat)

/-- Formats XYF and XYN: `c x y f`. -/
def encXyf (c : Nat) (x y : RegIdx) (f : Nat) : Word :=
  BitVec.ofNat 16 (c * 4096 + x.val * 256 + y.val * 16 + f)

/-- Format XFF: `c x f f`. -/
def encXff (c : Nat) (x : RegIdx) (ff : Nat) : Word := BitVec.ofNat 16 (c * 4096 + x.val * 256 + ff)

/-- The word of an instruction. -/
def encode (i : Instr) : Word :=
  match i with
  | .cls            => 0x00E0#16
  | .ret            => 0x00EE#16
  | .sysAddr nnn    => encAddr 0x0 nnn
  | .jpAddr nnn     => encAddr 0x1 nnn
  | .callAddr nnn   => encAddr 0x2 nnn
  | .seVxKk x kk    => encXkk 0x3 x kk
  | .sneVxKk x kk   => encXkk 0x4 x kk
  | .seVxVy x y     => encXyf 0x5 x y 0x0
  | .ldVxKk x kk    => encXkk 0x6 x kk
  | .addVxKk x kk   => encXkk 0x7 x kk
  | .ldVxVy x y     => encXyf 0x8 x y 0x0
  | .orVxVy x y     => encXyf 0x8 x y 0x1
  | .andVxVy x y    => encXyf 0x8 x y 0x2
  | .xorVxVy x y    => encXyf 0x8 x y 0x3
  | .addVxVy x y    => encXyf 0x8 x y 0x4
  | .subVxVy x y    => encXyf 0x8 x y 0x5
  | .shrVx x y      => encXyf 0x8 x y 0x6
  | .subnVxVy x y   => encXyf 0x8 x y 0x7
  | .shlVx x y      => encXyf 0x8 x y 0xE
  | .sneVxVy x y    => encXyf 0x9 x y 0x0
  | .ldIAddr nnn    => encAddr 0xA nnn
  | .jpV0Addr nnn   => encAddr 0xB nnn
  | .rndVxKk x kk   => encXkk 0xC x kk
  | .drwVxVyN x y n => encXyf 0xD x y n.val
  | .skpVx x        => encXff 0xE x 0x9E
  | .sknpVx x       => encXff 0xE x 0xA1
  | .ldVxDt x       => encXff 0xF x 0x07
  | .ldVxK x        => encXff 0xF x 0x0A
  | .ldDtVx x       => encXff 0xF x 0x15
  | .ldStVx x       => encXff 0xF x 0x18
  | .addIVx x       => encXff 0xF x 0x1E
  | .ldFVx x        => encXff 0xF x 0x29
  | .ldBVx x        => encXff 0xF x 0x33
  | .ldMemVx x      => encXff 0xF x 0x55
  | .ldVxMem x      => encXff 0xF x 0x65

end Sys2Proof
end

