-- ==== Sys2Proof/Machine/Flags.lean ====
section
/-! DEFINITION. Every value the engine writes to VF as a flag (spec/10_state.md R34), each 0 or 1. -/

namespace Sys2Proof.Machine

/-- A condition as the byte written to VF. -/
def flagByte (b : Bool) : Byte := if b then 1 else 0

/-- ADD Vx,Vy: carry, the sum exceeds 255 (42_alu.md R147). -/
def carryFlag (a b : Byte) : Byte := flagByte (255 < a.toNat + b.toNat)

/-- SUB and SUBN: NOT borrow of `a - b`, so 1 when `a ≥ b` (42_alu.md R148, R150). -/
def notBorrowFlag (a b : Byte) : Byte := flagByte (b.toNat ≤ a.toNat)

/-- SHR: the bit shifted out, bit 0 (42_alu.md R149). -/
def shiftedOutLow (a : Byte) : Byte := flagByte (a.getLsbD 0)

/-- SHL: the bit shifted out, bit 7 (42_alu.md R151). -/
def shiftedOutHigh (a : Byte) : Byte := flagByte (a.getLsbD 7)

/-- DRW: a lit pixel was erased (45_display.md R212). -/
def collisionFlag (hit : Bool) : Byte := flagByte hit

end Sys2Proof.Machine
end

