-- ==== Sys2Proof/Config.lean ====
section
/-! DEFINITION. The parameters the spec leaves open (spec/00_scope.md R6) and the free value of RND
(spec/42_alu.md R153). -/

namespace Sys2Proof

/-- DRW_EDGE: what becomes of a sprite bit that falls off-screen (45_display.md R214). -/
inductive DrwEdge where
  | clip
  | wrap
  | fault
deriving DecidableEq, Repr

/-- TIMER_SOURCE: what drives the timer decrement (44_keypad_timers.md R197, R198). -/
inductive TimerSource where
  | perStep
  | external
deriving DecidableEq, Repr

/-- KEY_OOR: what SKP and SKNP do with a key index above 0x0F (44_keypad_timers.md R190). -/
inductive KeyOor where
  | fault
  | lowNibble
deriving DecidableEq, Repr

/-- FONT: 80 bytes, 16 sprites of 5 bytes each; byte `k` of the sprite of digit `d` is `font[d][k]`
(00_scope.md R5, R6; 20_memory.md R55, R56). -/
abbrev Font := Vector (Vector Byte 5) 16

/-- The five parameters of 00_scope.md R6. "The model takes each as an argument": a `Config` is a
constant field of State (DESIGN CHOICE, log entry 1), so a claim about every state is a claim about every
value of every parameter. -/
structure Config where
  font         : Font
  drwEdge      : DrwEdge
  timerSource  : TimerSource
  keyOor       : KeyOor
  strictDecode : Bool
deriving DecidableEq, Repr

/-- The random byte of draw number `k` where the host has supplied none: any of the 256 bytes, under no
law (42_alu.md R153). It has no body: a free value (log entry 2). -/
opaque Config.freeByte : Nat → Byte

end Sys2Proof
end

