-- ==== Sys2Proof/Machine/State.lean ====
section
/-! DEFINITION. All the state of the engine (spec/10_state.md R20 to R38) as plain data, the reasons of the
host interface, and the state after reset (spec/70_reset_and_hazards.md R261). -/

namespace Sys2Proof.Machine

/-- FAULT, with the names of 60_exceptions.md R230; `noFault` is FAULT = 0. -/
inductive FaultCode where
  | noFault
  | stackOverflow
  | stackUnderflow
  | keyIndexRange
  | drawEdge
  | nonCanonicalOpcode
deriving DecidableEq, Repr

/-- The UnknownOpcode diagnostic `Diag(p, w)` (40_engine_cycle.md R104). -/
structure Diag where
  pc   : Word
  word : Word
deriving DecidableEq, Repr

/-- The machine's state. The last four fields are the MODEL's own: the parameters (log entry 1), the random
input (log entry 2) and the emitted diagnostics (log entry 3). -/
structure State where
  /-- V0..VF (R20); VF is the flag register too (R21). -/
  v        : Vector Byte 16
  /-- the index register I (R23) -/
  i        : Word
  /-- PC (R24) -/
  pc       : Word
  /-- SP, 0..16 (R25) -/
  sp       : Fin 17
  /-- the call stack S[0..15] (R26) -/
  stack    : Vector Word 16
  /-- the delay timer DT (R27) -/
  dt       : Byte
  /-- the sound timer ST (R28) -/
  st       : Byte
  /-- memory M (R30): the bytes that differ from the reset contents, addresses rising -/
  mem      : List Host.Cell
  /-- the display D (R31): pixel (x, y) is bit x of row y -/
  display  : Vector (BitVec 64) 32
  /-- the keypad K[0..15] (R32), true = pressed -/
  keys     : Vector Bool 16
  /-- FAULT (R33) -/
  fault    : FaultCode
  /-- FAULT_PC (R33) -/
  faultPc  : Word
  /-- FAULT_OP (R33) -/
  faultOp  : Word
  /-- the parameters (00_scope.md R6), constant -/
  config   : Config
  /-- the random bytes the host has supplied and no RND has drawn, oldest first (42_alu.md R153) -/
  rndQueue : List Byte
  /-- how many random bytes have been drawn -/
  rndDraws : Nat
  /-- the UnknownOpcode diagnostics emitted since the last reset, oldest first (10_state.md R40) -/
  diags    : List Diag
deriving DecidableEq, Repr

/-- The interface's faults: none. The spec's faults are a state of the machine, recorded in FAULT
(60_exceptions.md R238), and a step of a faulted engine is a step that changes nothing (40_engine_cycle.md
R101); nothing stops the step function itself ("A step never waits", R110). -/
inductive Fault where
deriving DecidableEq, Repr

/-- The interface's refusals. Only host actions raise them (and an instruction without a meaning, of which
there is none); each is safe: nothing is proved past it. -/
inductive Refusal where
  /-- an instruction without a meaning; raised by an arm of exec only; safe -/
  | notModelled (mnemonic : String)
  /-- the host asked for a tick while TIMER_SOURCE = per_step, when the input is not used (10_state.md
  R39); raised by `HostActions`; safe -/
  | tickNotUsed
  /-- a debug write of a value that does not fit its target (60_exceptions.md R247); raised by
  `HostActions`; safe -/
  | debugValueDoesNotFit
  /-- a debug write to the fault record (60_exceptions.md R247); raised by `HostActions`; safe -/
  | debugFaultRecord
deriving DecidableEq, Repr

/-- The state right after reset, with the default parameters (70_reset_and_hazards.md R261, 10_state.md
R38). Memory lists nothing: an unlisted address reads as its reset value. -/
def State.reset : State where
  v        := Vector.replicate 16 0
  i        := 0
  pc       := 0x0200
  sp       := 0
  stack    := Vector.replicate 16 0
  dt       := 0
  st       := 0
  mem      := []
  display  := Vector.replicate 32 0
  keys     := Vector.replicate 16 false
  fault    := .noFault
  faultPc  := 0
  faultOp  := 0
  config   := defaultConfig
  rndQueue := []
  rndDraws := 0
  diags    := []

end Sys2Proof.Machine
end

