-- ==== Sys2Proof/Machine/Memory.lean ====
section
/-! DEFINITION. Memory as a canonical list of (address, byte) pairs (spec/20_memory.md R50, R55), and its
two operations on one byte. -/

namespace Sys2Proof.Machine

/-- What an unlisted address reads as: its contents after reset, FONT at 0x000..0x04F and 0x00 elsewhere
(10_state.md R38, 20_memory.md R55). -/
def Memory.base (font : Font) (a : Nat) : Byte :=
  if h : a < 80 then (font[a / 5]'(by omega))[a % 5]'(by omega) else 0

/-- The byte at address `a`. -/
def Memory.read (font : Font) (m : List Host.Cell) (a : Nat) : Byte :=
  (m.lookup a).getD (Memory.base font a)

/-- The list without an entry for `a`. -/
def Memory.erase (m : List Host.Cell) (a : Nat) : List Host.Cell :=
  m.filter fun c => c.1 != a

/-- The cell put before the first cell of a higher address. -/
def Memory.insert (c : Host.Cell) : List Host.Cell → List Host.Cell
  | []     => [c]
  | d :: m => if c.1 < d.1 then c :: d :: m else d :: Memory.insert c m

/-- Memory with byte `b` at address `a`; a byte equal to the reset contents is not listed. -/
def Memory.write (font : Font) (m : List Host.Cell) (a : Nat) (b : Byte) : List Host.Cell :=
  if b = Memory.base font a then Memory.erase m a else Memory.insert (a, b) (Memory.erase m a)

/-- The canonical form: addresses strictly rising and inside 0x000..0xFFF, and no entry equal to what an
unlisted address reads as. -/
abbrev Memory.wf (font : Font) (m : List Host.Cell) : Prop :=
  m.Pairwise (fun c d => c.1 < d.1) ∧ ∀ c ∈ m, c.1 < 4096 ∧ c.2 ≠ Memory.base font c.1

end Sys2Proof.Machine
end

