-- ==== Sys2Proof/Machine/Ops.lean ====
section
/-! DEFINITION. The named operations over the state: registers, memory, stack, display, timers, fetch, the
random input, the diagnostic, and taking a fault (the accessors of spec/00_scope.md R9). -/

namespace Sys2Proof.Machine

/-! ## Registers -/

/-- `V[x]` (10_state.md R20). -/
def State.reg (s : State) (x : RegIdx) : Byte := s.v[x]

/-- `V[x] <- b` (10_state.md R20, R21: VF is written as any other register). -/
def State.setReg (s : State) (x : RegIdx) (b : Byte) : State := { s with v := s.v.set x b }

/-- VF is written as the flag first and `V[x]` second, so `V[x]` wins when x = 15 (40_engine_cycle.md
R108). -/
def State.setFlagThenReg (s : State) (flag : Byte) (x : RegIdx) (b : Byte) : State :=
  (s.setReg 15 flag).setReg x b

/-- `I <- w` (10_state.md R23). -/
def State.setIndex (s : State) (w : Word) : State := { s with i := w }

/-- `PC <- w` (10_state.md R24). -/
def State.setPc (s : State) (w : Word) : State := { s with pc := w }

/-- A skip: PC moves 2 past the post-fetch value when the condition holds (41_control_flow.md R125, R129). -/
def State.skipIf (s : State) (c : Bool) : State := if c then s.setPc (s.pc + 2) else s

/-! ## Memory (20_memory.md R51, R52): one byte at a time, addresses mod 4096 -/

/-- `MemRead(a, 1)`. -/
def State.memRead (s : State) (a : Nat) : Byte := Memory.read s.config.font s.mem (a % 4096)

/-- `MemWrite(a, 1, b)`. -/
def State.memWrite (s : State) (a : Nat) (b : Byte) : State :=
  { s with mem := Memory.write s.config.font s.mem (a % 4096) b }

/-- The bytes stored at `a`, `a + 1`, ... in rising order (20_memory.md R52, 40_engine_cycle.md R109). -/
def State.storeBytes (s : State) (a : Nat) : List Byte → State
  | []      => s
  | b :: bs => (s.memWrite a b).storeBytes (a + 1) bs

/-- V0..Vx loaded from `a`, `a + 1`, ..., `a + x`; the other registers keep their values (43_index_memory.md
R175). -/
def State.loadRegs (s : State) (a : Nat) (x : RegIdx) : State :=
  { s with v := Vector.ofFn fun k : Fin 16 => if k ≤ x then s.memRead (a + k.val) else s.v[k] }

/-! ## The call stack (10_state.md R25, R26) -/

/-- `S[SP] <- w; SP <- SP + 1`, for SP < 16. -/
def State.push (s : State) (w : Word) : State :=
  { s with stack := s.stack.setIfInBounds s.sp.val w, sp := Fin.ofNat 17 (s.sp.val + 1) }

/-- The return address that RET pops: `S[SP - 1]`, for SP > 0. -/
def State.top (s : State) : Word := s.stack[s.sp.val - 1]'(by have := s.sp.isLt; omega)

/-- `SP <- SP - 1`, for SP > 0; the slot keeps its value. -/
def State.pop (s : State) : State := { s with sp := Fin.ofNat 17 (s.sp.val - 1) }

/-! ## The display (10_state.md R31, 45_display.md R210) -/

/-- Pixel (px, py). -/
def State.pixel (s : State) (px : Fin 64) (py : Fin 32) : Bool := s.display[py].getLsbD px.val

/-- Pixel (px, py) exclusive-ored with 1. -/
def State.flipPixel (s : State) (px : Fin 64) (py : Fin 32) : State :=
  { s with display := s.display.set py (s.display[py] ^^^ BitVec.twoPow 64 px.val) }

/-- Every pixel 0. -/
def State.clearDisplay (s : State) : State := { s with display := Vector.replicate 32 0 }

/-! ## Timers (44_keypad_timers.md R197) -/

/-- A timer lowered by 1 while it is above zero. -/
def timerDown (t : Byte) : Byte := if t = 0 then 0 else t - 1

/-- `timer_decrement()`: the two timers, independently. -/
def State.timerDecrement (s : State) : State := { s with dt := timerDown s.dt, st := timerDown s.st }

/-! ## The random input and the diagnostic output -/

/-- The random byte of this step: the oldest byte the host has supplied, and a free value where it has
supplied none (42_alu.md R153, log entry 2). -/
def State.rnd (s : State) : Byte :=
  match s.rndQueue with
  | b :: _ => b
  | []     => Config.freeByte s.rndDraws

/-- The random byte of this step is used up: "Each RND takes its own rnd" (42_alu.md R152). -/
def State.rndTaken (s : State) : State :=
  { s with rndQueue := s.rndQueue.tail, rndDraws := s.rndDraws + 1 }

/-- `emit Diag(p, w)` (40_engine_cycle.md R104). -/
def State.emitDiag (s : State) (p w : Word) : State := { s with diags := s.diags ++ [⟨p, w⟩] }

/-! ## Fetch (40_engine_cycle.md R102) -/

/-- The big-endian word at PC and PC + 1. -/
def State.fetchWord (s : State) : Word :=
  wordOfBytes (s.memRead s.pc.toNat) (s.memRead (s.pc.toNat + 1))

/-- `PC <- p + 2`, mod 65536. -/
def State.advance (s : State) : State := s.setPc (s.pc + 2)

/-! ## Taking a fault (60_exceptions.md R238) and leaving the faulted state (R240) -/

/-- The 3-bit FAULT value of 60_exceptions.md R230. -/
def FaultCode.code : FaultCode → BitVec 3
  | .noFault            => 0
  | .stackOverflow      => 1
  | .stackUnderflow     => 2
  | .keyIndexRange      => 3
  | .drawEdge           => 4
  | .nonCanonicalOpcode => 5

/-- The address of the instruction being executed: a handler runs with PC = p + 2 (00_scope.md R11). -/
def State.instrAddr (s : State) : Word := s.pc - 2

/-- Fault entry: `s` is the state a handler starts in, which differs from the start of the step in PC only,
so PC goes back to p and the fault record is written; nothing else changes. -/
def State.raiseFault (s : State) (c : FaultCode) (w : Word) : State :=
  { s with pc := s.instrAddr, fault := c, faultPc := s.instrAddr, faultOp := w }

/-- The fault record as reset leaves it (70_reset_and_hazards.md R261): only reset or a load leaves the
faulted state (60_exceptions.md R240). -/
def State.clearFault (s : State) : State := { s with fault := .noFault, faultPc := 0, faultOp := 0 }

end Sys2Proof.Machine
end

