-- ==== Sys2Proof/Machine/Operands.lean ====
section
/-! DEFINITION. The operand forms: immediates, the effective addresses of I (spec/43_index_memory.md R176),
the key index (spec/44_keypad_timers.md R190) and the sprite of DRW (spec/45_display.md R212 to R214). -/

namespace Sys2Proof.Machine

/-- `zext_16(nnn)` (30_encoding.md R73). -/
def zextAddr (nnn : Addr12) : Word := nnn.setWidth 16

/-- `zext_16(V[x])` (00_scope.md R8). -/
def zextByte (b : Byte) : Word := b.setWidth 16

/-- The address I + k before its reduction mod 4096 (43_index_memory.md R176). -/
def State.indexed (s : State) (k : Nat) : Nat := s.i.toNat + k

/-- V0..Vx in register order (43_index_memory.md R174). -/
def State.regsUpTo (s : State) (x : RegIdx) : List Byte := s.v.toList.take (x.val + 1)

/-- Hundreds, tens and ones of a byte (43_index_memory.md R173). -/
def bcdDigits (b : Byte) : List Byte :=
  [BitVec.ofNat 8 (b.toNat / 100), BitVec.ofNat 8 (b.toNat / 10 % 10), BitVec.ofNat 8 (b.toNat % 10)]

/-- `keyindex(v)`: the key a register value names; none where the KeyIndexRange fault is raised
(44_keypad_timers.md R190). -/
def keyIndex (oor : KeyOor) (b : Byte) : Option KeyIdx :=
  if b.toNat ≤ 15 then some (Fin.ofNat 16 b.toNat)
  else
    match oor with
    | .fault     => none
    | .lowNibble => some (Fin.ofNat 16 b.toNat)

/-- The least pressed key (44_keypad_timers.md R194: "scan from key 0 upward"). -/
def State.firstPressed (s : State) : Option KeyIdx := (List.finRange 16).find? fun k => s.keys[k]

/-! ## The sprite -/

/-- `set(r, c)`: bit 7 - c of sprite row r (45_display.md R212, R213: bit 7 is the leftmost pixel). -/
def State.spriteBit (s : State) (r c : Nat) : Bool := (s.memRead (s.indexed r)).getLsbD (7 - c)

/-- The (row, column) pairs of the set bits of an n-row sprite, row by row from the left (45_display.md
R212). -/
def State.spriteBits (s : State) (n : Nat) : List (Nat × Nat) :=
  (List.range n).flatMap fun r => ((List.range 8).filter (s.spriteBit r)).map fun c => (r, c)

/-- The screen position of a sprite's top left corner: x0 = V[x] mod 64, y0 = V[y] mod 32 (45_display.md
R212). -/
def State.corner (s : State) (x y : RegIdx) : Nat × Nat := ((s.reg x).toNat % 64, (s.reg y).toNat % 32)

/-- Pixel position (px, py) is on the screen (45_display.md R210, R214). -/
def onScreen (px py : Nat) : Bool := px < 64 && py < 32

/-- The pixel a set sprite bit at (px, py) lands on; none where it is dropped (45_display.md R214). Under
`fault` an off-screen set bit has raised DrawEdge before any pixel is written. -/
def place (edge : DrwEdge) (px py : Nat) : Option (Fin 64 × Fin 32) :=
  if onScreen px py then some (Fin.ofNat 64 px, Fin.ofNat 32 py)
  else
    match edge with
    | .clip  => none
    | .wrap  => some (Fin.ofNat 64 px, Fin.ofNat 32 py)
    | .fault => none

/-- Some set bit of the sprite falls off-screen (45_display.md R212, R214). -/
def State.spriteOffScreen (s : State) (x y : RegIdx) (n : Nat) : Bool :=
  (s.spriteBits n).any fun rc => !onScreen ((s.corner x y).1 + rc.2) ((s.corner x y).2 + rc.1)

/-- The pixels a DRW flips, in the order it flips them (45_display.md R212). -/
def State.spritePixels (s : State) (x y : RegIdx) (n : Nat) : List (Fin 64 × Fin 32) :=
  (s.spriteBits n).filterMap fun rc =>
    place s.config.drwEdge ((s.corner x y).1 + rc.2) ((s.corner x y).2 + rc.1)

/-- The pixels flipped one after another; the Bool is `collision`, set when a lit pixel is erased
(45_display.md R212). -/
def State.flipPixels (s : State) (hit : Bool) : List (Fin 64 × Fin 32) → Bool × State
  | []      => (hit, s)
  | p :: ps => (s.flipPixel p.1 p.2).flipPixels (hit || s.pixel p.1 p.2) ps

end Sys2Proof.Machine
end

