-- ==== Sys2Proof/Machine/Alu.lean ====
section
/-! DEFINITION. Register arithmetic and logic (spec/42_alu.md). BitVec arithmetic on 8 bits is arithmetic
mod 256 (R140); operands are read from the state before any write (spec/40_engine_cycle.md R108). -/

namespace Sys2Proof.Machine

/-- LD Vx,kk (R141). -/
def execLdVxKk (x : RegIdx) (kk : Byte) (s : State) : Host.Outcome State Fault Refusal :=
  .next (s.setReg x kk)

/-- ADD Vx,kk: the carry is discarded (R142). -/
def execAddVxKk (x : RegIdx) (kk : Byte) (s : State) : Host.Outcome State Fault Refusal :=
  .next (s.setReg x (s.reg x + kk))

/-- LD Vx,Vy (R143). -/
def execLdVxVy (x y : RegIdx) (s : State) : Host.Outcome State Fault Refusal :=
  .next (s.setReg x (s.reg y))

/-- OR Vx,Vy: VF is not reset (R144). -/
def execOrVxVy (x y : RegIdx) (s : State) : Host.Outcome State Fault Refusal :=
  .next (s.setReg x (s.reg x ||| s.reg y))

/-- AND Vx,Vy (R145). -/
def execAndVxVy (x y : RegIdx) (s : State) : Host.Outcome State Fault Refusal :=
  .next (s.setReg x (s.reg x &&& s.reg y))

/-- XOR Vx,Vy (R146). -/
def execXorVxVy (x y : RegIdx) (s : State) : Host.Outcome State Fault Refusal :=
  .next (s.setReg x (s.reg x ^^^ s.reg y))

/-- ADD Vx,Vy (R147). -/
def execAddVxVy (x y : RegIdx) (s : State) : Host.Outcome State Fault Refusal :=
  .next (s.setFlagThenReg (carryFlag (s.reg x) (s.reg y)) x (s.reg x + s.reg y))

/-- SUB Vx,Vy (R148). -/
def execSubVxVy (x y : RegIdx) (s : State) : Host.Outcome State Fault Refusal :=
  .next (s.setFlagThenReg (notBorrowFlag (s.reg x) (s.reg y)) x (s.reg x - s.reg y))

/-- SHR Vx: y is decoded and ignored (R149). -/
def execShrVx (x _y : RegIdx) (s : State) : Host.Outcome State Fault Refusal :=
  .next (s.setFlagThenReg (shiftedOutLow (s.reg x)) x (s.reg x >>> 1))

/-- SUBN Vx,Vy (R150). -/
def execSubnVxVy (x y : RegIdx) (s : State) : Host.Outcome State Fault Refusal :=
  .next (s.setFlagThenReg (notBorrowFlag (s.reg y) (s.reg x)) x (s.reg y - s.reg x))

/-- SHL Vx: y is decoded and ignored (R151). -/
def execShlVx (x _y : RegIdx) (s : State) : Host.Outcome State Fault Refusal :=
  .next (s.setFlagThenReg (shiftedOutHigh (s.reg x)) x (s.reg x <<< 1))

/-- RND Vx,kk (R152, R153). -/
def execRndVxKk (x : RegIdx) (kk : Byte) (s : State) : Host.Outcome State Fault Refusal :=
  .next (s.rndTaken.setReg x (s.rnd &&& kk))

end Sys2Proof.Machine
end

