-- ==== Sys2Proof/Machine/ControlFlow.lean ====
section
/-! DEFINITION. The control transfers (spec/41_control_flow.md). A handler runs after the fetch, so PC =
p + 2 on entry (spec/00_scope.md R11). -/

namespace Sys2Proof.Machine

/-- SYS addr: a no-op; nnn is not used (R120). -/
def execSysAddr (_nnn : Addr12) (s : State) : Host.Outcome State Fault Refusal := .next s

/-- JP addr (R121). -/
def execJpAddr (nnn : Addr12) (s : State) : Host.Outcome State Fault Refusal :=
  .next (s.setPc (zextAddr nnn))

/-- CALL addr: the return address p + 2 is pushed; StackOverflow when SP = 16 (R122). -/
def execCallAddr (nnn : Addr12) (s : State) : Host.Outcome State Fault Refusal :=
  if s.sp = 16 then .next (s.raiseFault .stackOverflow (encode (.callAddr nnn)))
  else .next ((s.push s.pc).setPc (zextAddr nnn))

/-- RET: SP is lowered first, then the slot is read; StackUnderflow when SP = 0 (R123). -/
def execRet (s : State) : Host.Outcome State Fault Refusal :=
  if s.sp = 0 then .next (s.raiseFault .stackUnderflow (encode .ret))
  else .next (s.pop.setPc s.top)

/-- JP V0,addr (R124). -/
def execJpV0Addr (nnn : Addr12) (s : State) : Host.Outcome State Fault Refusal :=
  .next (s.setPc (zextAddr nnn + zextByte (s.reg 0)))

/-- SE Vx,kk (R125). -/
def execSeVxKk (x : RegIdx) (kk : Byte) (s : State) : Host.Outcome State Fault Refusal :=
  .next (s.skipIf (s.reg x == kk))

/-- SNE Vx,kk (R126). -/
def execSneVxKk (x : RegIdx) (kk : Byte) (s : State) : Host.Outcome State Fault Refusal :=
  .next (s.skipIf (s.reg x != kk))

/-- SE Vx,Vy (R127). -/
def execSeVxVy (x y : RegIdx) (s : State) : Host.Outcome State Fault Refusal :=
  .next (s.skipIf (s.reg x == s.reg y))

/-- SNE Vx,Vy (R128). -/
def execSneVxVy (x y : RegIdx) (s : State) : Host.Outcome State Fault Refusal :=
  .next (s.skipIf (s.reg x != s.reg y))

end Sys2Proof.Machine
end

