-- ==== Sys2Proof/Machine/Display.lean ====
section
/-! DEFINITION. The display instructions (spec/45_display.md). -/

namespace Sys2Proof.Machine

/-- CLS: VF is not written (R211). -/
def execCls (s : State) : Host.Outcome State Fault Refusal := .next s.clearDisplay

/-- DRW Vx,Vy,n: the coordinates and the rows are read before VF is written; DrawEdge, before any write,
when DRW_EDGE = fault and a set bit falls off-screen (R212, R214; 40_engine_cycle.md R108). -/
def execDrwVxVyN (x y : RegIdx) (n : Fin 16) (s : State) : Host.Outcome State Fault Refusal :=
  if s.config.drwEdge = .fault ∧ s.spriteOffScreen x y n.val = true then
    .next (s.raiseFault .drawEdge (encode (.drwVxVyN x y n)))
  else
    .next ((s.flipPixels false (s.spritePixels x y n.val)).2.setReg 15
      (collisionFlag (s.flipPixels false (s.spritePixels x y n.val)).1))

end Sys2Proof.Machine
end

