-- ==== Sys2Proof/Machine/IndexMemory.lean ====
section
/-! DEFINITION. The index register and memory (spec/43_index_memory.md). No instruction here changes PC
further, changes I as a side effect of an access (R176), or faults. -/

namespace Sys2Proof.Machine

/-- LD I,addr (R170). -/
def execLdIAddr (nnn : Addr12) (s : State) : Host.Outcome State Fault Refusal :=
  .next (s.setIndex (zextAddr nnn))

/-- ADD I,Vx: mod 65536, VF never written (R171). -/
def execAddIVx (x : RegIdx) (s : State) : Host.Outcome State Fault Refusal :=
  .next (s.setIndex (s.i + zextByte (s.reg x)))

/-- LD F,Vx: V[x] is not masked to its low nibble (R172). -/
def execLdFVx (x : RegIdx) (s : State) : Host.Outcome State Fault Refusal :=
  .next (s.setIndex (zextByte (s.reg x) * 5))

/-- LD B,Vx (R173). -/
def execLdBVx (x : RegIdx) (s : State) : Host.Outcome State Fault Refusal :=
  .next (s.storeBytes (s.indexed 0) (bcdDigits (s.reg x)))

/-- LD [I],Vx (R174). -/
def execLdMemVx (x : RegIdx) (s : State) : Host.Outcome State Fault Refusal :=
  .next (s.storeBytes (s.indexed 0) (s.regsUpTo x))

/-- LD Vx,[I] (R175). -/
def execLdVxMem (x : RegIdx) (s : State) : Host.Outcome State Fault Refusal :=
  .next (s.loadRegs (s.indexed 0) x)

end Sys2Proof.Machine
end

