-- ==== Sys2Proof/Machine/KeypadTimers.lean ====
section
/-! DEFINITION. The keypad and the timers (spec/44_keypad_timers.md). A step is atomic, so the keypad sampled
at its start (spec/10_state.md R36) is the keypad of the state. -/

namespace Sys2Proof.Machine

/-- SKP Vx (R191); KeyIndexRange where V[x] names no key (R190). -/
def execSkpVx (x : RegIdx) (s : State) : Host.Outcome State Fault Refusal :=
  match keyIndex s.config.keyOor (s.reg x) with
  | none   => .next (s.raiseFault .keyIndexRange (encode (.skpVx x)))
  | some k => .next (s.skipIf s.keys[k])

/-- SKNP Vx (R192); KeyIndexRange where V[x] names no key (R190). -/
def execSknpVx (x : RegIdx) (s : State) : Host.Outcome State Fault Refusal :=
  match keyIndex s.config.keyOor (s.reg x) with
  | none   => .next (s.raiseFault .keyIndexRange (encode (.sknpVx x)))
  | some k => .next (s.skipIf !s.keys[k])

/-- LD Vx,DT: the value before this step's decrement (R193). -/
def execLdVxDt (x : RegIdx) (s : State) : Host.Outcome State Fault Refusal :=
  .next (s.setReg x s.dt)

/-- LD Vx,K: the least pressed key, or PC back to p (R194). -/
def execLdVxK (x : RegIdx) (s : State) : Host.Outcome State Fault Refusal :=
  match s.firstPressed with
  | some k => .next (s.setReg x (BitVec.ofNat 8 k.val))
  | none   => .next (s.setPc s.instrAddr)

/-- LD DT,Vx (R195). -/
def execLdDtVx (x : RegIdx) (s : State) : Host.Outcome State Fault Refusal :=
  .next { s with dt := s.reg x }

/-- LD ST,Vx (R196). -/
def execLdStVx (x : RegIdx) (s : State) : Host.Outcome State Fault Refusal :=
  .next { s with st := s.reg x }

end Sys2Proof.Machine
end

