-- ==== Sys2Proof/Machine/Cycle.lean ====
section
/-! DEFINITION. One engine cycle of an engine that is not faulted: fetch, decode, execute, end of step
(spec/40_engine_cycle.md R102 to R107). -/

namespace Sys2Proof.Machine

/-- The end of a step that completes: the timer decrement when TIMER_SOURCE = per_step (R106). A step that
has raised a fault does not decrement the timers. -/
def State.endStep (s : State) : State :=
  if s.fault = .noFault ∧ s.config.timerSource = .perStep then s.timerDecrement else s

/-- The end of the step after a handler. -/
def finishStep (o : Host.Outcome State Fault Refusal) : Host.Outcome State Fault Refusal :=
  match o with
  | .next t    => .next t.endStep
  | .fault r   => .fault r
  | .refused r => .refused r

/-- A word that selects no row, with PC = p + 2 already: a no-op with a diagnostic, or the fault
NonCanonicalOpcode when STRICT_DECODE = true (R104, 60_exceptions.md R231, R237). -/
def unknownOpcode (w : Word) (s : State) : State :=
  if s.config.strictDecode then s.raiseFault .nonCanonicalOpcode w else s.emitDiag s.instrAddr w

/-- The cycle of R107 after its faulted check. -/
def runCycle (s : State) : Host.Outcome State Fault Refusal :=
  match decode s.fetchWord with
  | some i => finishStep (exec i s.advance)
  | none   => finishStep (.next (unknownOpcode s.fetchWord s.advance))

/-- The state whose next cycle fetches the given bytes: they lie at PC, and the engine is not faulted (a
faulted engine fetches nothing, R101). -/
def State.placeAtPc (s : State) (bytes : List Byte) : State := s.clearFault.storeBytes s.pc.toNat bytes

end Sys2Proof.Machine
end

