-- ==== Sys2Proof/Machine/Step.lean ====
section
/-! DEFINITION. The step (spec/40_engine_cycle.md R107). -/

namespace Sys2Proof.Machine

/-- One step. "A step in the faulted state does nothing" (R101). -/
def step (s : State) : Host.Outcome State Fault Refusal :=
  if s.fault = .noFault then runCycle s else .next s

/-- `s` with the table's word stored where the next step fetches it (log entry 24). -/
def State.withFetchWord (s : State) (nbits w : Nat) : State := s.placeAtPc (tableWordBytes nbits w)

end Sys2Proof.Machine
end

