-- ==== Sys2Proof/Machine/HostActions.lean ====
section
/-! DEFINITION. What the host does between steps (spec/10_state.md R39 to R42, spec/60_exceptions.md R247,
R249): load, set_key, rnd, tick, get_pixel, sound_on, and the debug port. -/

namespace Sys2Proof.Machine

/-! ## Reset and load (70_reset_and_hazards.md R261 to R264) -/

/-- `reset()`: every piece of the engine's state at its reset value (R261). The parameters and the random
input are not the engine's state and stay (log entry 21). -/
def State.resetEngine (s : State) : State :=
  { State.reset with config := s.config, rndQueue := s.rndQueue, rndDraws := s.rndDraws }

/-- MAX_ROM (00_scope.md R5). -/
def maxRom : Nat := 3584

/-- What `load(bytes)` answers (10_state.md R40). -/
inductive LoadResult where
  | ok
  | capacityExceeded
deriving DecidableEq, Repr

/-- `load(bytes)` (R262): the capacity check comes before the reset, so a failed load changes no state
(R263). -/
def State.load (s : State) (rom : List Byte) : LoadResult × State :=
  if maxRom < rom.length then (.capacityExceeded, s) else (.ok, s.resetEngine.storeBytes 0x200 rom)

/-! ## Inputs -/

/-- `set_key(k, b)` writes K[k] and nothing else (10_state.md R41). -/
def State.setKey (s : State) (k : KeyIdx) (b : Bool) : State := { s with keys := s.keys.set k b }

/-- The host supplies one random byte, drawn after those it has supplied before (42_alu.md R153). -/
def State.supplyRnd (s : State) (b : Byte) : State := { s with rndQueue := s.rndQueue ++ [b] }

/-- `tick` under TIMER_SOURCE = external: one timer decrement, and nothing in the faulted state
(44_keypad_timers.md R198). -/
def State.tick (s : State) : State := if s.fault = .noFault then s.timerDecrement else s

/-! ## Outputs -/

/-- `get_pixel(q)` is D[q] for q ≤ 2047 and has no answer above (45_display.md R215). -/
def State.getPixel (s : State) (q : Nat) : Option Bool :=
  if q < 2048 then some (s.pixel (Fin.ofNat 64 q) (Fin.ofNat 32 (q / 64))) else none

/-- `sound_on` is 1 exactly when ST ≠ 0 (10_state.md R42). -/
def State.soundOn (s : State) : Bool := s.st != 0

/-! ## The debug port (60_exceptions.md R247) -/

/-- Every piece of state the spec gives the engine (10_state.md R38), one place each. -/
inductive Place where
  | reg (x : RegIdx)
  | index
  | pc
  | sp
  | slot (j : Fin 16)
  | delayTimer
  | soundTimer
  | byte (a : Fin 4096)
  | pixel (px : Fin 64) (py : Fin 32)
  | key (k : KeyIdx)
  | faultCode
  | faultPc
  | faultOp
deriving DecidableEq, Repr

/-- Debug read: "The host may read any state between steps". -/
def State.debugRead (s : State) (p : Place) : Nat :=
  match p with
  | .reg x      => (s.reg x).toNat
  | .index      => s.i.toNat
  | .pc         => s.pc.toNat
  | .sp         => s.sp.val
  | .slot j     => s.stack[j].toNat
  | .delayTimer => s.dt.toNat
  | .soundTimer => s.st.toNat
  | .byte a     => (s.memRead a.val).toNat
  | .pixel x y  => (s.pixel x y).toNat
  | .key k      => s.keys[k].toNat
  | .faultCode  => s.fault.code.toNat
  | .faultPc    => s.faultPc.toNat
  | .faultOp    => s.faultOp.toNat

/-- How many values a place holds; none where it cannot be written (R247). -/
def Place.size (p : Place) : Option Nat :=
  match p with
  | .reg _ | .delayTimer | .soundTimer | .byte _ => some 256
  | .index | .pc | .slot _                       => some 65536
  | .sp                                          => some 17
  | .pixel _ _ | .key _                          => some 2
  | .faultCode | .faultPc | .faultOp             => none

/-- The place set to a value that fits it; the fault record stays. -/
def State.debugSet (s : State) (p : Place) (n : Nat) : State :=
  match p with
  | .reg x      => s.setReg x (BitVec.ofNat 8 n)
  | .index      => s.setIndex (BitVec.ofNat 16 n)
  | .pc         => s.setPc (BitVec.ofNat 16 n)
  | .sp         => { s with sp := Fin.ofNat 17 n }
  | .slot j     => { s with stack := s.stack.set j (BitVec.ofNat 16 n) }
  | .delayTimer => { s with dt := BitVec.ofNat 8 n }
  | .soundTimer => { s with st := BitVec.ofNat 8 n }
  | .byte a     => s.memWrite a.val (BitVec.ofNat 8 n)
  | .pixel x y  => if s.pixel x y = (n == 1) then s else s.flipPixel x y
  | .key k      => s.setKey k (n == 1)
  | .faultCode | .faultPc | .faultOp => s

/-- Debug write: "only when its value fits the target"; "The fault record cannot be written". -/
def State.debugWrite (s : State) (p : Place) (n : Nat) : Host.Outcome State Fault Refusal :=
  match p.size with
  | none   => .refused .debugFaultRecord
  | some m => if n < m then .next (s.debugSet p n) else .refused .debugValueDoesNotFit

/-! ## Moves: the engine's step and the host's actions (70_reset_and_hazards.md R271) -/

/-- A move of the engine or of the host that can change the state (60_exceptions.md R249). -/
inductive Move where
  | step
  | load (rom : List Byte)
  | setKey (k : KeyIdx) (b : Bool)
  | supplyRnd (b : Byte)
  | tick
  | debugWrite (p : Place) (n : Nat)
deriving DecidableEq, Repr

/-- One move. A tick is an input only when TIMER_SOURCE = external (10_state.md R39). -/
def State.move (s : State) (m : Move) : Host.Outcome State Fault Refusal :=
  match m with
  | .step           => Sys2Proof.Machine.step s
  | .load rom       => .next (s.load rom).2
  | .setKey k b     => .next (s.setKey k b)
  | .supplyRnd b    => .next (s.supplyRnd b)
  | .tick           => if s.config.timerSource = .external then .next s.tick else .refused .tickNotUsed
  | .debugWrite p n => s.debugWrite p n

/-- Any interleaving of moves: "Any interleaving of host actions between steps is a possible execution"
(R271). A refused move changes nothing. -/
def State.moves (s : State) : List Move → State
  | []      => s
  | m :: ms =>
    match s.move m with
    | .next t    => t.moves ms
    | .fault _   => s.moves ms
    | .refused _ => s.moves ms

end Sys2Proof.Machine
end

