-- ==== Sys2Proof/Safety.lean ====
section
/-! DEFINITION. The terms in which claims speak: what a transition leaves alone, fault entry, the execution
states (spec/60_exceptions.md R243), a parked end of run (spec/70_reset_and_hazards.md R274), and the
invariant of the machine. -/

namespace Sys2Proof.Machine

/-! ## Frames (00_scope.md R10) -/

/-- From `s` to `t` no place but those listed changes, as the debug read sees it (60_exceptions.md R247);
the parameters stay. -/
def OnlyPlaces (ps : List Place) (s t : State) : Prop :=
  (∀ p, p ∉ ps → t.debugRead p = s.debugRead p) ∧ t.config = s.config

/-- `OnlyPlaces`, with no diagnostic emitted and no random byte drawn. -/
def OnlyChanges (ps : List Place) (s t : State) : Prop :=
  OnlyPlaces ps s t ∧ t.diags = s.diags ∧ t.rndQueue = s.rndQueue ∧ t.rndDraws = s.rndDraws

/-- The bytes at I, I + 1, ..., I + n - 1, mod 4096 (43_index_memory.md R176). -/
def State.block (s : State) (n : Nat) : List Place :=
  (List.range n).map fun k => .byte (Fin.ofNat 4096 (s.indexed k))

/-- The registers V0..Vx (43_index_memory.md R175). -/
def regsTo (x : RegIdx) : List Place := ((List.finRange 16).filter (· ≤ x)).map .reg

/-- Every pixel of the display. -/
def allPixels : List Place :=
  (List.finRange 32).flatMap fun py => (List.finRange 64).map fun px => .pixel px py

/-- From the state `s` a handler starts in, with PC = p + 2, to a state that differs in exactly what fault
entry writes: PC = p, FAULT = c, FAULT_PC = p, FAULT_OP = w (60_exceptions.md R238). -/
def FaultEntry (c : FaultCode) (w : Word) (s t : State) : Prop :=
  t.pc = s.pc - 2 ∧ t.fault = c ∧ t.faultPc = s.pc - 2 ∧ t.faultOp = w ∧
    OnlyChanges [.pc, .faultCode, .faultPc, .faultOp] s t

/-- The debug port writes place `p`, as `read` sees it, with every value below `bound`, changing nothing else, and
refuses every other value (60_exceptions.md R247). -/
def DebugWritable (s : State) (p : Place) (bound : Nat) (read : State → Nat) : Prop :=
  ∀ n, (n < bound → ∃ t, s.debugWrite p n = .next t ∧ read t = n ∧ OnlyChanges [p] s t) ∧
    (bound ≤ n → s.debugWrite p n = .refused .debugValueDoesNotFit)

/-! ## Execution states (60_exceptions.md R243) and the end of a run (70_reset_and_hazards.md R274) -/

/-- faulted: FAULT ≠ 0. -/
def State.Faulted (s : State) : Prop := s.fault ≠ .noFault

/-- blocked-on-key: not faulted, the word at PC is Fx0A, and no key is pressed. -/
def State.BlockedOnKey (s : State) : Prop :=
  s.fault = .noFault ∧ (∃ x, decode s.fetchWord = some (.ldVxK x)) ∧ ∀ k : KeyIdx, s.keys[k] = false

/-- ready: not faulted, and the word at PC is not a blocked LD Vx,K. -/
def State.Ready (s : State) : Prop := s.fault = .noFault ∧ ¬ s.BlockedOnKey

/-- parked: not faulted, and the word at PC is 1nnn with zext_16(nnn) = PC. -/
def State.Parked (s : State) : Prop :=
  s.fault = .noFault ∧ ∃ nnn : Addr12, decode s.fetchWord = some (.jpAddr nnn) ∧ nnn.toNat = s.pc.toNat

/-- A safe run of k steps ends in a state that is not faulted. -/
def State.RunsSafely (s : State) (k : Nat) : Prop :=
  ∃ t, Host.Core.run Sys2Proof.core k s = .next t ∧ t.fault = .noFault

/-! ## The conditions of the five faults (60_exceptions.md R230) -/

/-- The fault an instruction raises in a state; `noFault` where it completes (60_exceptions.md R230, R232 to
R235). -/
def faultOf (i : Instr) (s : State) : FaultCode :=
  match i with
  | .callAddr _     => if s.sp = 16 then .stackOverflow else .noFault
  | .ret            => if s.sp = 0 then .stackUnderflow else .noFault
  | .skpVx x        => if s.config.keyOor = .fault ∧ 15 < (s.reg x).toNat then .keyIndexRange else .noFault
  | .sknpVx x       => if s.config.keyOor = .fault ∧ 15 < (s.reg x).toNat then .keyIndexRange else .noFault
  | .drwVxVyN x y n =>
    if s.config.drwEdge = .fault ∧ s.spriteOffScreen x y n.val = true then .drawEdge else .noFault
  | .cls | .sysAddr _ | .jpAddr _ | .seVxKk _ _ | .sneVxKk _ _ | .seVxVy _ _ => .noFault
  | .ldVxKk _ _ | .addVxKk _ _ | .ldVxVy _ _ | .orVxVy _ _ | .andVxVy _ _ | .xorVxVy _ _ => .noFault
  | .addVxVy _ _ | .subVxVy _ _ | .shrVx _ _ | .subnVxVy _ _ | .shlVx _ _ | .sneVxVy _ _ => .noFault
  | .ldIAddr _ | .jpV0Addr _ | .rndVxKk _ _ | .ldVxDt _ | .ldVxK _ | .ldDtVx _ | .ldStVx _ => .noFault
  | .addIVx _ | .ldFVx _ | .ldBVx _ | .ldMemVx _ | .ldVxMem _ => .noFault

/-! ## The invariant -/

/-- The fault record tells the truth (10_state.md R33, 60_exceptions.md R238): with no fault it is zero; with
a fault, PC is at the recorded address, the recorded word is the word there, and that word raises the
recorded fault in this very state. -/
def State.RecordTrue (s : State) : Prop :=
  match s.fault with
  | .noFault            => s.faultPc = 0 ∧ s.faultOp = 0
  | .nonCanonicalOpcode =>
    s.pc = s.faultPc ∧ s.fetchWord = s.faultOp ∧ s.config.strictDecode = true ∧ decode s.faultOp = none
  | .stackOverflow | .stackUnderflow | .keyIndexRange | .drawEdge =>
    s.pc = s.faultPc ∧ s.fetchWord = s.faultOp ∧
      ∃ i, decode s.faultOp = some i ∧ faultOf i s = s.fault

/-- The invariant of the machine: memory is in its canonical form and the fault record tells the truth. -/
def State.Inv (s : State) : Prop := Memory.wf s.config.font s.mem ∧ s.RecordTrue

end Sys2Proof.Machine
end

