-- ==== Sys2Proof/Certificates/Slice0/Obligations.lean ====
section
/-! DEFINITION. The statements for the provers. A handler's statement is about `exec i s` with PC = p + 2 in
`s` (spec/00_scope.md R11); a statement about a whole step is about `step s` with PC = p. Values are read as
naturals, and the arithmetic is the spec's own. `OnlyChanges ps s t` is the frame: every register, stack slot,
timer, byte of memory, pixel, key and fault field outside `ps` reads as before. -/

open Sys2Proof Sys2Proof.Machine

/-! ## Decoding (30_encoding.md) -/

/-- R74 and R75: a word that a row matches, and no earlier row, decodes to that row's instruction, with the
fields x = w[11:8], y = w[7:4], kk = w[7:0], nnn = w[11:0], n = w[3:0]. Only SYS has an earlier row that
overlaps it. (The patterns are the spec's decision D4.) -/
def Obligations.DecodeSelectsTheFirstMatchingRow : Prop :=
  ∀ (w : Word) (x y n : Fin 16) (kk : Byte) (nnn : Addr12),
    x.val = w.toNat / 256 % 16 → y.val = w.toNat / 16 % 16 → n.val = w.toNat % 16 →
    kk.toNat = w.toNat % 256 → nnn.toNat = w.toNat % 4096 →
    (w &&& 0xFFFF = 0x00E0 → decode w = some .cls) ∧
    (w &&& 0xFFFF = 0x00EE → decode w = some .ret) ∧
    (w &&& 0xF000 = 0x0000 → w ≠ 0x00E0 → w ≠ 0x00EE → decode w = some (.sysAddr nnn)) ∧
    (w &&& 0xF000 = 0x1000 → decode w = some (.jpAddr nnn)) ∧
    (w &&& 0xF000 = 0x2000 → decode w = some (.callAddr nnn)) ∧
    (w &&& 0xF000 = 0x3000 → decode w = some (.seVxKk x kk)) ∧
    (w &&& 0xF000 = 0x4000 → decode w = some (.sneVxKk x kk)) ∧
    (w &&& 0xF00F = 0x5000 → decode w = some (.seVxVy x y)) ∧
    (w &&& 0xF000 = 0x6000 → decode w = some (.ldVxKk x kk)) ∧
    (w &&& 0xF000 = 0x7000 → decode w = some (.addVxKk x kk)) ∧
    (w &&& 0xF00F = 0x8000 → decode w = some (.ldVxVy x y)) ∧
    (w &&& 0xF00F = 0x8001 → decode w = some (.orVxVy x y)) ∧
    (w &&& 0xF00F = 0x8002 → decode w = some (.andVxVy x y)) ∧
    (w &&& 0xF00F = 0x8003 → decode w = some (.xorVxVy x y)) ∧
    (w &&& 0xF00F = 0x8004 → decode w = some (.addVxVy x y)) ∧
    (w &&& 0xF00F = 0x8005 → decode w = some (.subVxVy x y)) ∧
    (w &&& 0xF00F = 0x8006 → decode w = some (.shrVx x y)) ∧
    (w &&& 0xF00F = 0x8007 → decode w = some (.subnVxVy x y)) ∧
    (w &&& 0xF00F = 0x800E → decode w = some (.shlVx x y)) ∧
    (w &&& 0xF00F = 0x9000 → decode w = some (.sneVxVy x y)) ∧
    (w &&& 0xF000 = 0xA000 → decode w = some (.ldIAddr nnn)) ∧
    (w &&& 0xF000 = 0xB000 → decode w = some (.jpV0Addr nnn)) ∧
    (w &&& 0xF000 = 0xC000 → decode w = some (.rndVxKk x kk)) ∧
    (w &&& 0xF000 = 0xD000 → decode w = some (.drwVxVyN x y n)) ∧
    (w &&& 0xF0FF = 0xE09E → decode w = some (.skpVx x)) ∧
    (w &&& 0xF0FF = 0xE0A1 → decode w = some (.sknpVx x)) ∧
    (w &&& 0xF0FF = 0xF007 → decode w = some (.ldVxDt x)) ∧
    (w &&& 0xF0FF = 0xF00A → decode w = some (.ldVxK x)) ∧
    (w &&& 0xF0FF = 0xF015 → decode w = some (.ldDtVx x)) ∧
    (w &&& 0xF0FF = 0xF018 → decode w = some (.ldStVx x)) ∧
    (w &&& 0xF0FF = 0xF01E → decode w = some (.addIVx x)) ∧
    (w &&& 0xF0FF = 0xF029 → decode w = some (.ldFVx x)) ∧
    (w &&& 0xF0FF = 0xF033 → decode w = some (.ldBVx x)) ∧
    (w &&& 0xF0FF = 0xF055 → decode w = some (.ldMemVx x)) ∧
    (w &&& 0xF0FF = 0xF065 → decode w = some (.ldVxMem x))

/-- The unknown words are exactly the five groups of 30_encoding.md R77 (a rule the spec marks as derived). -/
def Obligations.UnknownWordsAreTheFiveGroups : Prop :=
  ∀ w : Word, decode w = none ↔
    (w.toNat / 4096 = 0x5 ∧ w.toNat % 16 ≠ 0) ∨
    (w.toNat / 4096 = 0x8 ∧ w.toNat % 16 ∈ [0x8, 0x9, 0xA, 0xB, 0xC, 0xD, 0xF]) ∨
    (w.toNat / 4096 = 0x9 ∧ w.toNat % 16 ≠ 0) ∨
    (w.toNat / 4096 = 0xE ∧ w.toNat % 256 ∉ [0x9E, 0xA1]) ∨
    (w.toNat / 4096 = 0xF ∧ w.toNat % 256 ∉ [0x07, 0x0A, 0x15, 0x18, 0x1E, 0x29, 0x33, 0x55, 0x65])

/-- Two rows of the opcode map that one word selects are CLS or RET and SYS (30_encoding.md section 2): "Only
rows 1, 2 and 3 overlap". -/
def Obligations.OnlySysOverlapsEarlierRows : Prop :=
  opcodeMap.length = 35 ∧
  ∀ (j k : Nat) (r q : Row) (w : Word), j < k → opcodeMap[j]? = some r → opcodeMap[k]? = some q →
    r.selects w = true → q.selects w = true → k = 2 ∧ (w = 0x00E0 ∨ w = 0x00EE)

/-- A word of each family written out from R74 decodes to its instruction. -/
def Obligations.SampleWordsDecode : Prop :=
  decode 0x00E0 = some .cls ∧ decode 0x00E1 = some (.sysAddr 0x0E1) ∧ decode 0x2210 = some (.callAddr 0x210) ∧
  decode 0x331F = some (.seVxKk 3 0x1F) ∧ decode 0x8125 = some (.subVxVy 1 2) ∧
  decode 0xA300 = some (.ldIAddr 0x300) ∧ decode 0xDBC5 = some (.drwVxVyN 0xB 0xC 5) ∧
  decode 0xF10A = some (.ldVxK 1) ∧ decode 0xF255 = some (.ldMemVx 2) ∧ decode 0x5121 = none

/-- Decoding the word of a well-formed instruction gives it back, for every value of every operand. -/
def Obligations.DecodeOfEncode : Prop :=
  ∀ i : Instr, i.wellFormed = true → decode (encode i) = some i

/-- Encoding what a word decodes to gives the word back, and it is well-formed: a word has one meaning and no
bit of it is lost, the ignored y of SHR and SHL included. -/
def Obligations.EncodeOfDecode : Prop :=
  ∀ (w : Word) (i : Instr), decode w = some i → encode i = w ∧ i.wellFormed = true

/-! ## The engine cycle (40_engine_cycle.md) -/

/-- R102: the word at PC, big-endian, each address mod 4096 (the spec's decision D1); PC becomes p + 2 mod
65536, and nothing else changes. -/
def Obligations.FetchReadsBigEndianAndAdvances : Prop :=
  ∀ s : State,
    s.fetchWord.toNat =
      (Memory.read s.config.font s.mem (s.pc.toNat % 4096)).toNat * 256 +
        (Memory.read s.config.font s.mem ((s.pc.toNat + 1) % 4096)).toNat ∧
    s.advance.pc.toNat = (s.pc.toNat + 2) % 65536 ∧ OnlyChanges [.pc] s s.advance

/-- R103, R105, R107: when the engine is not faulted and the word at PC decodes to `i`, the step is `exec i`
at the state with PC moved past the word, and then the end of the step. -/
def Obligations.StepRunsTheDecodedInstruction : Prop :=
  ∀ (s t : State) (i : Instr), s.fault = .noFault → decode s.fetchWord = some i →
    exec i s.advance = .next t → step s = .next t.endStep

/-- R106 and R197: a step that completes ends with each timer lowered by 1 while above zero, when
TIMER_SOURCE = per_step, after the handler's writes (`u` is the state the handler leaves, or the unknown-opcode
no-op); under `external` the step leaves the timers as the handler did; a step that raises a fault does not
decrement them. (The order is the spec's decision D10.) -/
def Obligations.CompletedStepDecrementsTimersOnce : Prop :=
  ∀ s u : State, s.fault = .noFault →
    (∀ i, decode s.fetchWord = some i → exec i s.advance = .next u) →
    (decode s.fetchWord = none → u = unknownOpcode s.fetchWord s.advance) →
    ∃ t, step s = .next t ∧
      (u.fault = .noFault → s.config.timerSource = .perStep →
        t.dt.toNat = (if u.dt.toNat > 0 then u.dt.toNat - 1 else 0) ∧
        t.st.toNat = (if u.st.toNat > 0 then u.st.toNat - 1 else 0) ∧
        OnlyChanges [.delayTimer, .soundTimer] u t) ∧
      (s.config.timerSource = .external → OnlyChanges [] u t) ∧
      (u.fault ≠ .noFault → OnlyChanges [] u t)

/-- R104, R231, R237: an unknown word is a no-op with one diagnostic Diag(p, w), PC = p + 2 and the timers
decremented as in any step; with STRICT_DECODE = true it raises NonCanonicalOpcode, with PC = p and no
diagnostic (the spec's decisions D5, D24). -/
def Obligations.UnknownOpcodeIsNoOpOrFault : Prop :=
  ∀ s : State, s.fault = .noFault → decode s.fetchWord = none →
    (s.config.strictDecode = false → ∃ t, step s = .next t ∧
      t.pc.toNat = (s.pc.toNat + 2) % 65536 ∧ t.diags = s.diags ++ [⟨s.pc, s.fetchWord⟩] ∧
      (s.config.timerSource = .perStep → t.dt.toNat = s.dt.toNat - 1 ∧ t.st.toNat = s.st.toNat - 1) ∧
      (s.config.timerSource = .external → t.dt = s.dt ∧ t.st = s.st) ∧
      OnlyPlaces [.pc, .delayTimer, .soundTimer] s t ∧ t.rndQueue = s.rndQueue ∧ t.rndDraws = s.rndDraws) ∧
    (s.config.strictDecode = true → ∃ t, step s = .next t ∧
      t.fault = .nonCanonicalOpcode ∧ t.faultPc = s.pc ∧ t.faultOp = s.fetchWord ∧
      OnlyChanges [.faultCode, .faultPc, .faultOp] s t)

/-- R101: a faulted engine stays as it is for any number of steps, and a tick changes nothing either (the
spec's decision D7). -/
def Obligations.FaultedEngineNeverMoves : Prop :=
  ∀ (s : State) (k : Nat), s.Faulted → Host.Core.run Sys2Proof.core k s = .next s ∧ s.tick = s

/-- Every step of every state answers a next state: no address faults, no word stops the engine, and a step
never waits (40_engine_cycle.md section 2, 20_memory.md section 2). -/
def Obligations.EveryStepAnswers : Prop :=
  ∀ s : State, ∃ t, step s = .next t

/-! ## Whole-machine rules -/

/-- Only LD I, ADD I and LD F write I (10_state.md section 2, 00_scope.md section 4; I unchanged by block
transfers is the spec's decision D18). -/
def Obligations.OnlyThreeInstructionsWriteI : Prop :=
  ∀ (i : Instr) (s t : State), exec i s = .next t →
    (∀ a, i ≠ .ldIAddr a) → (∀ x, i ≠ .addIVx x) → (∀ x, i ≠ .ldFVx x) → t.i = s.i

/-- Only LD B and LD [I],Vx change a byte of memory (20_memory.md section 4). -/
def Obligations.OnlyTwoInstructionsWriteMemory : Prop :=
  ∀ (i : Instr) (s t : State), exec i s = .next t →
    (∀ x, i ≠ .ldBVx x) → (∀ x, i ≠ .ldMemVx x) → ∀ a, t.memRead a = s.memRead a

/-- Only CALL and RET reach the stack and SP (10_state.md section 2); RET changes no slot and CALL no slot but
S[SP]. -/
def Obligations.OnlyCallAndRetReachTheStack : Prop :=
  ∀ (i : Instr) (s t : State), exec i s = .next t →
    ((∀ a, i ≠ .callAddr a) → t.stack = s.stack) ∧
    ((∀ a, i ≠ .callAddr a) → i ≠ .ret → t.sp = s.sp) ∧
    (∀ j : Fin 16, j.val ≠ s.sp.val → t.stack[j] = s.stack[j])

/-- Only CLS and DRW change a pixel (10_state.md section 3, 45_display.md section 1). -/
def Obligations.OnlyClsAndDrwChangePixels : Prop :=
  ∀ (i : Instr) (s t : State), exec i s = .next t →
    i ≠ .cls → (∀ x y n, i ≠ .drwVxVyN x y n) → ∀ px py, t.pixel px py = s.pixel px py

/-- VF is written only by ADD Vx,Vy, SUB, SHR, SUBN, SHL and DRW, and by the writes whose destination is
register 15 (00_scope.md R10): the register loads and the operations with x = 15, and a block load up to VF. -/
def Obligations.VfWrittenOnlyAsFlagOrDestination : Prop :=
  ∀ (i : Instr) (s t : State), exec i s = .next t →
    (∀ x y, i ≠ .addVxVy x y ∧ i ≠ .subVxVy x y ∧ i ≠ .shrVx x y ∧ i ≠ .subnVxVy x y ∧ i ≠ .shlVx x y) →
    (∀ x y n, i ≠ .drwVxVyN x y n) →
    (∀ kk, i ≠ .ldVxKk 15 kk ∧ i ≠ .addVxKk 15 kk ∧ i ≠ .rndVxKk 15 kk) →
    (∀ y, i ≠ .ldVxVy 15 y ∧ i ≠ .orVxVy 15 y ∧ i ≠ .andVxVy 15 y ∧ i ≠ .xorVxVy 15 y) →
    i ≠ .ldVxDt 15 → i ≠ .ldVxK 15 → i ≠ .ldVxMem 15 → t.reg 15 = s.reg 15

/-- No step writes the keypad or a parameter: the keypad is "read by instructions" (10_state.md section 3). -/
def Obligations.NoStepWritesKeypadOrParameters : Prop :=
  ∀ s t : State, step s = .next t → t.keys = s.keys ∧ t.config = s.config

/-- R28: "No instruction reads it". Two engines that differ in ST only take steps to states that differ in ST
only: nothing else can be learned from the sound timer. At an RND with no random byte supplied the two engines draw
the same free value, because the model keys it by the draw counter, which they share: that is the model's choice,
log entry 2. -/
def Obligations.SoundTimerIsNeverRead : Prop :=
  ∀ (s t t' : State) (c : Byte), step s = .next t → step { s with st := c } = .next t' →
    OnlyChanges [.soundTimer] t t'

/-- An instruction faults exactly under its condition of 60_exceptions.md R230, with that code; "No instruction
other than those listed can fault". -/
def Obligations.FaultsExactlyUnderTheirConditions : Prop :=
  ∀ (i : Instr) (s : State), s.fault = .noFault →
    ∃ t, exec i s = .next t ∧ t.fault = faultOf i s

/-- R238: a step that faults keeps the state from before the step, with PC = p, and adds the fault record: the
code, the address p and the fetched word. No timer is decremented and no diagnostic is emitted (the spec's
decision D7). -/
def Obligations.FaultEntryIsPrecise : Prop :=
  ∀ s t : State, s.fault = .noFault → step s = .next t → t.fault ≠ .noFault →
    t = { s with fault := t.fault, faultPc := s.pc, faultOp := s.fetchWord }

/-! ## Control transfer (41_control_flow.md) -/

/-- R120: SYS is a no-op whatever nnn is: PC stays p + 2, nothing else changes, and no diagnostic is emitted. -/
def Obligations.SysIsANoOp : Prop :=
  ∀ (nnn : Addr12) (s : State), ∃ t, exec (.sysAddr nnn) s = .next t ∧ OnlyChanges [] s t

/-- R121 and R124: JP writes nnn to PC; JP V0 writes nnn + V0, kept above 0xFFF as it is. Odd targets are
legal. -/
def Obligations.JumpsWritePc : Prop :=
  ∀ (nnn : Addr12) (s : State),
    (∃ t, exec (.jpAddr nnn) s = .next t ∧ t.pc.toNat = nnn.toNat ∧ OnlyChanges [.pc] s t) ∧
    (∃ t, exec (.jpV0Addr nnn) s = .next t ∧ t.pc.toNat = nnn.toNat + (s.reg 0).toNat ∧ OnlyChanges [.pc] s t)

/-- R122 and R232: CALL pushes the post-fetch PC, raises SP and jumps; with SP = 16 it raises StackOverflow,
nothing is pushed and PC = p (the spec's decision D6). -/
def Obligations.CallPushesAndJumpsOrOverflows : Prop :=
  ∀ (nnn : Addr12) (s : State),
    (∀ j : Fin 16, s.sp.val = j.val → ∃ t, exec (.callAddr nnn) s = .next t ∧
      t.stack[j] = s.pc ∧ t.sp.val = s.sp.val + 1 ∧ t.pc.toNat = nnn.toNat ∧
      OnlyChanges [.slot j, .sp, .pc] s t) ∧
    (s.sp.val = 16 → ∃ t, exec (.callAddr nnn) s = .next t ∧
      FaultEntry .stackOverflow (encode (.callAddr nnn)) s t)

/-- R123 and R233: RET lowers SP and reads the slot, which it does not clear (the spec's decision D9); with
SP = 0 it raises StackUnderflow with the word 0x00EE (decision D6). -/
def Obligations.RetPopsOrUnderflows : Prop :=
  ∀ s : State,
    (∀ j : Fin 16, s.sp.val = j.val + 1 → ∃ t, exec .ret s = .next t ∧
      t.pc = s.stack[j] ∧ t.sp.val = j.val ∧ OnlyChanges [.sp, .pc] s t) ∧
    (s.sp.val = 0 → ∃ t, exec .ret s = .next t ∧ FaultEntry .stackUnderflow 0x00EE s t)

/-- "CALL then RET restores PC to the instruction immediately after the CALL, with SP restored to its pre-CALL
value": two steps, from a CALL at p whose target holds a RET, lead to p + 2 with the same SP; only the dead slot
and the timers can differ otherwise (41_control_flow.md, 95_test_vectors.md W8). -/
def Obligations.CallThenRetReturns : Prop :=
  ∀ (s u : State) (nnn : Addr12) (j : Fin 16), s.fault = .noFault → decode s.fetchWord = some (.callAddr nnn) →
    s.sp.val = j.val → step s = .next u → decode u.fetchWord = some .ret →
    ∃ t, step u = .next t ∧ t.pc.toNat = (s.pc.toNat + 2) % 65536 ∧ t.sp = s.sp ∧
      OnlyChanges [.pc, .slot j, .delayTimer, .soundTimer] s t

/-- R125 to R128: a skip moves PC by 2 more (mod 65536) exactly when its condition holds, and changes nothing
else; x = y always skips for SE and never for SNE. -/
def Obligations.SkipsMovePcExactlyOnTheirCondition : Prop :=
  ∀ (x y : RegIdx) (kk : Byte) (s : State),
    (∃ t, exec (.seVxKk x kk) s = .next t ∧ OnlyChanges [.pc] s t ∧
      t.pc.toNat = (if (s.reg x).toNat = kk.toNat then (s.pc.toNat + 2) % 65536 else s.pc.toNat)) ∧
    (∃ t, exec (.sneVxKk x kk) s = .next t ∧ OnlyChanges [.pc] s t ∧
      t.pc.toNat = (if (s.reg x).toNat = kk.toNat then s.pc.toNat else (s.pc.toNat + 2) % 65536)) ∧
    (∃ t, exec (.seVxVy x y) s = .next t ∧ OnlyChanges [.pc] s t ∧
      t.pc.toNat = (if (s.reg x).toNat = (s.reg y).toNat then (s.pc.toNat + 2) % 65536 else s.pc.toNat)) ∧
    (∃ t, exec (.sneVxVy x y) s = .next t ∧ OnlyChanges [.pc] s t ∧
      t.pc.toNat = (if (s.reg x).toNat = (s.reg y).toNat then s.pc.toNat else (s.pc.toNat + 2) % 65536))

/-! ## Arithmetic and logic (42_alu.md) -/

/-- R141, R142, R143: the loads write their value; ADD Vx,kk wraps mod 256 and sets no flag, VF being written
only as a destination. -/
def Obligations.LoadsAndAddImmediateWriteOnlyVx : Prop :=
  ∀ (x y : RegIdx) (kk : Byte) (s : State),
    (∃ t, exec (.ldVxKk x kk) s = .next t ∧ t.reg x = kk ∧ OnlyChanges [.reg x] s t) ∧
    (∃ t, exec (.addVxKk x kk) s = .next t ∧
      (t.reg x).toNat = ((s.reg x).toNat + kk.toNat) % 256 ∧ OnlyChanges [.reg x] s t) ∧
    (∃ t, exec (.ldVxVy x y) s = .next t ∧ t.reg x = s.reg y ∧ OnlyChanges [.reg x] s t)

/-- R144, R145, R146: OR, AND and XOR bit by bit; VF is not written unless x = 15. -/
def Obligations.LogicWorksBitByBit : Prop :=
  ∀ (x y : RegIdx) (s : State),
    (∃ t, exec (.orVxVy x y) s = .next t ∧ OnlyChanges [.reg x] s t ∧
      ∀ b, b < 8 → (t.reg x).getLsbD b = ((s.reg x).getLsbD b || (s.reg y).getLsbD b)) ∧
    (∃ t, exec (.andVxVy x y) s = .next t ∧ OnlyChanges [.reg x] s t ∧
      ∀ b, b < 8 → (t.reg x).getLsbD b = ((s.reg x).getLsbD b && (s.reg y).getLsbD b)) ∧
    (∃ t, exec (.xorVxVy x y) s = .next t ∧ OnlyChanges [.reg x] s t ∧
      ∀ b, b < 8 → (t.reg x).getLsbD b = xor ((s.reg x).getLsbD b) ((s.reg y).getLsbD b))

/-- R147: sum mod 256 and the carry in VF; when x = 15 the sum overwrites the flag, and when y = 15 the operand
is VF's old value (R108, the spec's decision D17). -/
def Obligations.AddRegistersSetsSumAndCarry : Prop :=
  ∀ (x y : RegIdx) (s : State), ∃ t, exec (.addVxVy x y) s = .next t ∧
    (t.reg x).toNat = ((s.reg x).toNat + (s.reg y).toNat) % 256 ∧
    (x ≠ 15 → (t.reg 15).toNat = if (s.reg x).toNat + (s.reg y).toNat > 255 then 1 else 0) ∧
    OnlyChanges [.reg x, .reg 15] s t

/-- R148 and R150: the difference mod 256 (a + 256 - b when it borrows) and NOT borrow in VF, 1 on equality;
when x = 15 the difference overwrites the flag. -/
def Obligations.SubtractionsSetDifferenceAndNotBorrow : Prop :=
  ∀ (x y : RegIdx) (s : State),
    (∃ t, exec (.subVxVy x y) s = .next t ∧
      (t.reg x).toNat = ((s.reg x).toNat + 256 - (s.reg y).toNat) % 256 ∧
      (x ≠ 15 → (t.reg 15).toNat = if (s.reg x).toNat ≥ (s.reg y).toNat then 1 else 0) ∧
      OnlyChanges [.reg x, .reg 15] s t) ∧
    (∃ t, exec (.subnVxVy x y) s = .next t ∧
      (t.reg x).toNat = ((s.reg y).toNat + 256 - (s.reg x).toNat) % 256 ∧
      (x ≠ 15 → (t.reg 15).toNat = if (s.reg y).toNat ≥ (s.reg x).toNat then 1 else 0) ∧
      OnlyChanges [.reg x, .reg 15] s t)

/-- R149 and R151: a shift by one bit, the bit shifted out in VF, V[y] neither read nor written; when x = 15 the
shifted value overwrites the flag. -/
def Obligations.ShiftsMoveOneBitIntoVf : Prop :=
  ∀ (x y : RegIdx) (s : State),
    (∃ t, exec (.shrVx x y) s = .next t ∧ (t.reg x).toNat = (s.reg x).toNat / 2 ∧
      (x ≠ 15 → (t.reg 15).toNat = (s.reg x).toNat % 2) ∧ OnlyChanges [.reg x, .reg 15] s t) ∧
    (∃ t, exec (.shlVx x y) s = .next t ∧ (t.reg x).toNat = (s.reg x).toNat * 2 % 256 ∧
      (x ≠ 15 → (t.reg 15).toNat = (s.reg x).toNat / 128) ∧ OnlyChanges [.reg x, .reg 15] s t)

/-- R152: V[x] is the random byte of the step AND kk, for every byte `b` the host supplies; each RND takes its
own byte; where the host has supplied none the byte is a free value, of which only the bits of kk can be set
(R153, log entry 2). -/
def Obligations.RndMasksTheRandomByte : Prop :=
  ∀ (x : RegIdx) (kk : Byte) (s : State),
    (∃ t, exec (.rndVxKk x kk) s = .next t ∧ OnlyPlaces [.reg x] s t ∧ t.diags = s.diags ∧
      t.rndQueue = s.rndQueue.tail ∧ t.rndDraws = s.rndDraws + 1 ∧
      t.reg x = s.rnd &&& kk ∧ ∀ b, (t.reg x).getLsbD b = true → kk.getLsbD b = true) ∧
    (∀ (b : Byte) (q : List Byte), s.rndQueue = b :: q → ∃ t, exec (.rndVxKk x kk) s = .next t ∧
      t.rndQueue = q ∧ ∀ k, (t.reg x).getLsbD k = (b.getLsbD k && kk.getLsbD k))

/-! ## Index register and memory (43_index_memory.md) -/

/-- R170, R171, R172: LD I zero-extends nnn; ADD I is mod 65536 and never writes VF; LD F is V[x] * 5 with V[x]
not masked. -/
def Obligations.IndexInstructionsWriteI : Prop :=
  ∀ (x : RegIdx) (nnn : Addr12) (s : State),
    (∃ t, exec (.ldIAddr nnn) s = .next t ∧ t.i.toNat = nnn.toNat ∧ OnlyChanges [.index] s t) ∧
    (∃ t, exec (.addIVx x) s = .next t ∧ t.i.toNat = (s.i.toNat + (s.reg x).toNat) % 65536 ∧
      OnlyChanges [.index] s t) ∧
    (∃ t, exec (.ldFVx x) s = .next t ∧ t.i.toNat = (s.reg x).toNat * 5 ∧ OnlyChanges [.index] s t)

/-- R173: hundreds, tens and ones at I, I + 1 and I + 2, each address mod 4096 (the spec's decision D1), and
every other byte as before. -/
def Obligations.BcdStoresThreeDigits : Prop :=
  ∀ (x : RegIdx) (s : State), ∃ t, exec (.ldBVx x) s = .next t ∧
    (t.memRead (s.i.toNat + 0)).toNat = (s.reg x).toNat / 100 ∧
    (t.memRead (s.i.toNat + 1)).toNat = (s.reg x).toNat / 10 % 10 ∧
    (t.memRead (s.i.toNat + 2)).toNat = (s.reg x).toNat % 10 ∧
    OnlyChanges (s.block 3) s t ∧
    ∀ a, (∀ k, k < 3 → a % 4096 ≠ s.indexed k % 4096) → t.memRead a = s.memRead a

/-- R174: V0..Vx inclusive at I, ..., I + x, each address mod 4096; I and every other byte as before (the
spec's decisions D1, D18). -/
def Obligations.StoreRegistersWritesTheBlock : Prop :=
  ∀ (x : RegIdx) (s : State), ∃ t, exec (.ldMemVx x) s = .next t ∧
    (∀ k : RegIdx, k ≤ x → t.memRead (s.i.toNat + k.val) = s.reg k) ∧
    OnlyChanges (s.block (x.val + 1)) s t ∧
    ∀ a, (∀ k, k ≤ x.val → a % 4096 ≠ s.indexed k % 4096) → t.memRead a = s.memRead a

/-- R175: V0..Vx inclusive from I, ..., I + x, each address mod 4096; I, memory and the registers above x as
before (the spec's decisions D1, D18). -/
def Obligations.LoadRegistersReadsTheBlock : Prop :=
  ∀ (x : RegIdx) (s : State), ∃ t, exec (.ldVxMem x) s = .next t ∧
    (∀ k : RegIdx, k ≤ x → t.reg k = s.memRead (s.i.toNat + k.val)) ∧
    OnlyChanges (regsTo x) s t

/-- A block load undoes a block store: from any state with the same I that sees the stored memory, V0..Vx come
back (43_index_memory.md rules R174, R175 together). -/
def Obligations.BlockStoreThenLoadRestores : Prop :=
  ∀ (x : RegIdx) (s t u : State), exec (.ldMemVx x) s = .next t →
    u.mem = t.mem → u.config = t.config → u.i = t.i →
    ∃ r, exec (.ldVxMem x) u = .next r ∧ ∀ k : RegIdx, k ≤ x → r.reg k = s.reg k

/-- A byte that LD B or LD [I],Vx stores over the next word is the byte the next step fetches (20_memory.md section
5, 70_reset_and_hazards.md section 3): for each stored byte k, if I + k reaches the next word's high byte at p + 2
or its low byte at p + 3 (mod 4096, the spec's decision D1), that byte of the next fetch is the stored one; a byte
of the next word that is not stored to is fetched as before. -/
def Obligations.StoreIsSeenByTheNextFetch : Prop :=
  ∀ (x : RegIdx) (s : State), s.fault = .noFault →
    (decode s.fetchWord = some (.ldMemVx x) → ∃ t, step s = .next t ∧
      (∀ k : RegIdx, k ≤ x → s.indexed k.val % 4096 = (s.pc.toNat + 2) % 4096 →
        t.fetchWord.toNat / 256 = (s.reg k).toNat) ∧
      (∀ k : RegIdx, k ≤ x → s.indexed k.val % 4096 = (s.pc.toNat + 3) % 4096 →
        t.fetchWord.toNat % 256 = (s.reg k).toNat) ∧
      ((∀ k, k ≤ x.val → s.indexed k % 4096 ≠ (s.pc.toNat + 2) % 4096) →
        t.fetchWord.toNat / 256 = (s.memRead (s.pc.toNat + 2)).toNat) ∧
      ((∀ k, k ≤ x.val → s.indexed k % 4096 ≠ (s.pc.toNat + 3) % 4096) →
        t.fetchWord.toNat % 256 = (s.memRead (s.pc.toNat + 3)).toNat)) ∧
    (decode s.fetchWord = some (.ldBVx x) → ∃ t, step s = .next t ∧
      (∀ k d, [(s.reg x).toNat / 100, (s.reg x).toNat / 10 % 10, (s.reg x).toNat % 10][k]? = some d →
        (s.indexed k % 4096 = (s.pc.toNat + 2) % 4096 → t.fetchWord.toNat / 256 = d) ∧
        (s.indexed k % 4096 = (s.pc.toNat + 3) % 4096 → t.fetchWord.toNat % 256 = d)) ∧
      ((∀ k, k < 3 → s.indexed k % 4096 ≠ (s.pc.toNat + 2) % 4096) →
        t.fetchWord.toNat / 256 = (s.memRead (s.pc.toNat + 2)).toNat) ∧
      ((∀ k, k < 3 → s.indexed k % 4096 ≠ (s.pc.toNat + 3) % 4096) →
        t.fetchWord.toNat % 256 = (s.memRead (s.pc.toNat + 3)).toNat))

/-! ## Keypad and timers (44_keypad_timers.md) -/

/-- R190, R191, R192 and R234: the key V[x], or V[x] mod 16 when KEY_OOR = low_nibble, decides the skip on its
level; with V[x] > 0x0F and KEY_OOR = fault, KeyIndexRange (the spec's decision D13). -/
def Obligations.KeySkipsTestTheNamedKey : Prop :=
  ∀ (x : RegIdx) (k : KeyIdx) (s : State), k.val = (s.reg x).toNat % 16 →
    ((s.reg x).toNat ≤ 15 ∨ s.config.keyOor = .lowNibble →
      (∃ t, exec (.skpVx x) s = .next t ∧ OnlyChanges [.pc] s t ∧
        t.pc.toNat = (if s.keys[k] = true then (s.pc.toNat + 2) % 65536 else s.pc.toNat)) ∧
      (∃ t, exec (.sknpVx x) s = .next t ∧ OnlyChanges [.pc] s t ∧
        t.pc.toNat = (if s.keys[k] = false then (s.pc.toNat + 2) % 65536 else s.pc.toNat))) ∧
    ((s.reg x).toNat > 15 → s.config.keyOor = .fault →
      (∃ t, exec (.skpVx x) s = .next t ∧ FaultEntry .keyIndexRange (encode (.skpVx x)) s t) ∧
      (∃ t, exec (.sknpVx x) s = .next t ∧ FaultEntry .keyIndexRange (encode (.sknpVx x)) s t))

/-- R194: with some key pressed, V[x] is the least pressed key (the spec's decision D14) and PC stays p + 2;
with none, PC goes back by 2 to p and nothing else changes. -/
def Obligations.KeyWaitTakesLeastPressedOrRetries : Prop :=
  ∀ (x : RegIdx) (s : State),
    (∀ j : KeyIdx, s.keys[j] = true → (∀ k : KeyIdx, k < j → s.keys[k] = false) →
      ∃ t, exec (.ldVxK x) s = .next t ∧ (t.reg x).toNat = j.val ∧ OnlyChanges [.reg x] s t) ∧
    ((∀ k : KeyIdx, s.keys[k] = false) →
      ∃ t, exec (.ldVxK x) s = .next t ∧ t.pc = s.pc - 2 ∧ OnlyChanges [.pc] s t)

/-- With no key pressed the wait never ends by itself: after any number of steps the engine is still blocked at
the same LD Vx,K, and only the timers have moved (44_keypad_timers.md, 95_test_vectors.md W9). -/
def Obligations.KeyWaitNeverEndsWithoutAKey : Prop :=
  ∀ (s : State) (k : Nat), s.BlockedOnKey →
    ∃ t, Host.Core.run Sys2Proof.core k s = .next t ∧ t.BlockedOnKey ∧
      OnlyChanges [.delayTimer, .soundTimer] s t

/-- R193, R195, R196, for the handler and for the whole step: LD Vx,DT reads DT before this step's decrement; LD
DT and LD ST write the timer, and with TIMER_SOURCE = per_step this step's own decrement follows the write (the
spec's decision D10); `sound_on` is 1 after the step exactly when ST ≠ 0 then. -/
def Obligations.TimerLoadsReadAndWriteTheTimers : Prop :=
  ∀ (x : RegIdx) (s : State),
    (∃ t, exec (.ldVxDt x) s = .next t ∧ t.reg x = s.dt ∧ OnlyChanges [.reg x] s t) ∧
    (∃ t, exec (.ldDtVx x) s = .next t ∧ t.dt = s.reg x ∧ OnlyChanges [.delayTimer] s t) ∧
    (∃ t, exec (.ldStVx x) s = .next t ∧ t.st = s.reg x ∧ OnlyChanges [.soundTimer] s t) ∧
    (s.fault = .noFault → decode s.fetchWord = some (.ldVxDt x) → ∃ t, step s = .next t ∧ t.reg x = s.dt ∧
      (s.config.timerSource = .perStep → t.dt.toNat = s.dt.toNat - 1) ∧
      (s.config.timerSource = .external → t.dt = s.dt)) ∧
    (s.fault = .noFault → decode s.fetchWord = some (.ldDtVx x) → ∃ t, step s = .next t ∧
      (s.config.timerSource = .perStep → t.dt.toNat = (s.reg x).toNat - 1) ∧
      (s.config.timerSource = .external → t.dt = s.reg x)) ∧
    (s.fault = .noFault → decode s.fetchWord = some (.ldStVx x) → ∃ t, step s = .next t ∧
      (s.config.timerSource = .perStep → t.st.toNat = (s.reg x).toNat - 1) ∧
      (s.config.timerSource = .external → t.st = s.reg x) ∧ (t.soundOn = true ↔ t.st.toNat ≠ 0))

/-- With TIMER_SOURCE = per_step, after k completed steps from DT = d, DT = max(0, d - k) if no LD DT,Vx ran in
between (70_reset_and_hazards.md R270, which the spec marks as derived). -/
def Obligations.DelayTimerCountsCompletedSteps : Prop :=
  ∀ (k : Nat) (s t : State), s.config.timerSource = .perStep →
    Host.Core.run Sys2Proof.core k s = .next t → t.fault = .noFault →
    (∀ j u, j < k → Host.Core.run Sys2Proof.core j s = .next u → ∀ x, decode u.fetchWord ≠ some (.ldDtVx x)) →
    t.dt.toNat = s.dt.toNat - k

/-- R198: under `external` a tick lowers each timer by 1 while above zero and changes nothing else; in the
faulted state it changes nothing. -/
def Obligations.TickLowersTheTimers : Prop :=
  ∀ s : State, s.config.timerSource = .external →
    ∃ t, s.move .tick = .next t ∧
      (s.fault = .noFault → t.dt.toNat = s.dt.toNat - 1 ∧ t.st.toNat = s.st.toNat - 1 ∧
        OnlyChanges [.delayTimer, .soundTimer] s t) ∧
      (s.fault ≠ .noFault → OnlyChanges [] s t)

/-! ## Display (45_display.md) -/

/-- R211: every pixel becomes 0; VF is not written and nothing else changes. -/
def Obligations.ClsClearsEveryPixel : Prop :=
  ∀ s : State, ∃ t, exec .cls s = .next t ∧ (∀ px py, t.pixel px py = false) ∧ OnlyChanges allPixels s t

/-- R212, R213, R214, R235: DRW in closed form. A set sprite bit (r, c), bit 7 - c of the byte at I + r, lands
at (x0 + c, y0 + r) where that is on-screen, and under `wrap` at its coordinates mod 64 and 32; a pixel is
exclusive-ored exactly when some set bit lands on it, VF = 1 exactly when such a pixel was lit, and nothing else
changes. Under `fault` an off-screen set bit raises DrawEdge before any write. (The bit order is the spec's
decision D16, the edge policies D15.) -/
def Obligations.DrwXorsTheSprite : Prop :=
  ∀ (x y : RegIdx) (n : Fin 16) (s : State) (x0 y0 : Nat) (set : Nat → Nat → Prop) (lands : Fin 64 → Fin 32 → Prop),
    x0 = (s.reg x).toNat % 64 → y0 = (s.reg y).toNat % 32 →
    (∀ r c, set r c ↔ r < n.val ∧ c < 8 ∧ (s.memRead (s.i.toNat + r)).getLsbD (7 - c) = true) →
    (∀ px py, lands px py ↔ ∃ r c, set r c ∧
      ((px.val = x0 + c ∧ py.val = y0 + r) ∨
        (s.config.drwEdge = .wrap ∧ px.val = (x0 + c) % 64 ∧ py.val = (y0 + r) % 32))) →
    ((s.config.drwEdge = .fault ∧ ∃ r c, set r c ∧ (x0 + c > 63 ∨ y0 + r > 31)) →
      ∃ t, exec (.drwVxVyN x y n) s = .next t ∧ FaultEntry .drawEdge (encode (.drwVxVyN x y n)) s t) ∧
    (¬(s.config.drwEdge = .fault ∧ ∃ r c, set r c ∧ (x0 + c > 63 ∨ y0 + r > 31)) →
      ∃ t, exec (.drwVxVyN x y n) s = .next t ∧
        (∀ px py, lands px py → t.pixel px py = !s.pixel px py) ∧
        (∀ px py, ¬ lands px py → t.pixel px py = s.pixel px py) ∧
        ((∃ px py, lands px py ∧ s.pixel px py = true) → t.reg 15 = 1) ∧
        ((∀ px py, lands px py → s.pixel px py = false) → t.reg 15 = 0) ∧
        OnlyChanges (.reg 15 :: allPixels) s t)

/-- A sprite of no rows draws nothing and sets VF = 0, under every edge policy (45_display.md, corner cases of
DRW). -/
def Obligations.EmptySpriteOnlyClearsVf : Prop :=
  ∀ (x y : RegIdx) (s : State), ∃ t, exec (.drwVxVyN x y 0) s = .next t ∧
    t.reg 15 = 0 ∧ OnlyChanges [.reg 15] s t

/-- Drawing the same sprite twice at the same place restores the display (45_display.md, corner cases of DRW;
90_conflicts.md C3), where the coordinates are not in VF: the second draw restores every pixel, and sets VF = 1
if the first lit any. -/
def Obligations.DrawingTwiceRestoresTheDisplay : Prop :=
  ∀ (x y : RegIdx) (n : Fin 16) (s t : State), x ≠ 15 → y ≠ 15 → s.fault = .noFault →
    exec (.drwVxVyN x y n) s = .next t → t.fault = .noFault →
    ∃ u, exec (.drwVxVyN x y n) t = .next u ∧ (∀ px py, u.pixel px py = s.pixel px py) ∧
      ((∃ px py, s.pixel px py = false ∧ t.pixel px py = true) → u.reg 15 = 1)

/-! ## Reset, load and the host (70_reset_and_hazards.md, 60_exceptions.md) -/

/-- R261: reset from any state gives every register, slot, timer, key, pixel and fault field its value, FONT at
0x000..0x04F, 0x00 in the rest of memory, and PC = 0x200; the state after reset is what a reset leaves. -/
def Obligations.ResetSetsEveryPlace : Prop :=
  (∀ s : State,
    (∀ k : Fin 16, s.resetEngine.reg k = 0 ∧ s.resetEngine.stack[k] = 0 ∧ s.resetEngine.keys[k] = false) ∧
    s.resetEngine.i = 0 ∧ s.resetEngine.pc = 0x200 ∧ s.resetEngine.sp = 0 ∧
    s.resetEngine.dt = 0 ∧ s.resetEngine.st = 0 ∧
    (∀ px py, s.resetEngine.pixel px py = false) ∧
    s.resetEngine.fault.code = 0 ∧ s.resetEngine.faultPc = 0 ∧ s.resetEngine.faultOp = 0 ∧
    (∀ (d : Fin 16) (k : Fin 5), s.resetEngine.memRead (5 * d.val + k.val) = s.config.font[d][k]) ∧
    (∀ a, 80 ≤ a → a < 4096 → s.resetEngine.memRead a = 0)) ∧
  State.reset.resetEngine = State.reset

/-- R262: a ROM of at most 3584 bytes loads: the engine is reset and the bytes lie from 0x200 on, with 0x00
after them and FONT untouched. -/
def Obligations.LoadResetsAndPlacesTheRom : Prop :=
  ∀ (s : State) (rom : List Byte), rom.length ≤ 3584 →
    (s.load rom).1 = .ok ∧
    (∀ k b, rom[k]? = some b → (s.load rom).2.memRead (0x200 + k) = b) ∧
    (∀ a, a < 4096 → (a < 0x200 ∨ 0x200 + rom.length ≤ a) →
      (s.load rom).2.memRead a = s.resetEngine.memRead a) ∧
    OnlyChanges ((List.range rom.length).map fun k => .byte (Fin.ofNat 4096 (0x200 + k)))
      s.resetEngine (s.load rom).2

/-- R263: a longer ROM gives CapacityExceeded and changes no state (the spec's decision D21). -/
def Obligations.OversizedRomChangesNothing : Prop :=
  ∀ (s : State) (rom : List Byte), 3584 < rom.length → s.load rom = (.capacityExceeded, s)

/-- After a load the state depends only on the bytes and FONT, whatever ran before (70_reset_and_hazards.md
R264, which the spec marks as derived); the model's parameters and random input are the host's and stay (log
entry 21). -/
def Obligations.LoadLeaksNothing : Prop :=
  ∀ (s s' : State) (rom : List Byte), rom.length ≤ 3584 → s.config = s'.config →
    s.rndQueue = s'.rndQueue → s.rndDraws = s'.rndDraws → (s.load rom).2 = (s'.load rom).2

/-- R247: a debug write is admitted exactly when its value fits the target (8 bits for V[i], DT, ST and memory
bytes; 16 bits for I, PC and S[j]; 0..16 for SP; one bit for D[q] and K[k]); the target then holds the value and
nothing else changes; one that does not fit is refused; the fault record cannot be written. -/
def Obligations.DebugWriteMustFit : Prop :=
  ∀ s : State,
    (∀ x, DebugWritable s (.reg x) 256 fun t => (t.reg x).toNat) ∧
    DebugWritable s .delayTimer 256 (fun t => t.dt.toNat) ∧
    DebugWritable s .soundTimer 256 (fun t => t.st.toNat) ∧
    (∀ a, DebugWritable s (.byte a) 256 fun t => (t.memRead a.val).toNat) ∧
    DebugWritable s .index 65536 (fun t => t.i.toNat) ∧
    DebugWritable s .pc 65536 (fun t => t.pc.toNat) ∧
    (∀ j, DebugWritable s (.slot j) 65536 fun t => t.stack[j].toNat) ∧
    DebugWritable s .sp 17 (fun t => t.sp.val) ∧
    (∀ px py, DebugWritable s (.pixel px py) 2 fun t => (t.pixel px py).toNat) ∧
    (∀ k, DebugWritable s (.key k) 2 fun t => t.keys[k].toNat) ∧
    ∀ p ∈ [Place.faultCode, .faultPc, .faultOp], ∀ n, s.debugWrite p n = .refused .debugFaultRecord

/-- R41: set_key writes K[k] and nothing else. -/
def Obligations.SetKeyWritesOneKey : Prop :=
  ∀ (s : State) (k : KeyIdx) (b : Bool), ∃ t, s.move (.setKey k b) = .next t ∧
    t.keys[k] = b ∧ OnlyChanges [.key k] s t

/-- R215 and R42: get_pixel(q) is the pixel (q mod 64, q div 64), with no answer from 2048 on; sound_on is 1
exactly when ST ≠ 0. -/
def Obligations.OutputsReadTheState : Prop :=
  ∀ s : State,
    (∀ (px : Fin 64) (py : Fin 32), s.getPixel (px.val + 64 * py.val) = some (s.pixel px py)) ∧
    (∀ q, 2048 ≤ q → s.getPixel q = none) ∧
    (s.soundOn = true ↔ s.st.toNat ≠ 0)

/-- A parked state stays parked: after any number of steps nothing but the timers has changed
(70_reset_and_hazards.md R274: "which every later step maps to itself except for the timers"; decision D31). -/
def Obligations.ParkedStateStaysParked : Prop :=
  ∀ (s : State) (k : Nat), s.Parked →
    ∃ t, Host.Core.run Sys2Proof.core k s = .next t ∧ t.Parked ∧ OnlyChanges [.delayTimer, .soundTimer] s t

/-! ## Invariants -/

/-- Every step keeps the invariant: memory stays in its canonical form, and the fault record tells the truth (a
recorded fault has its cause in the very state, at the recorded address, with the recorded word). -/
def Obligations.StepKeepsTheInvariant : Prop :=
  ∀ s t : State, s.Inv → step s = .next t → t.Inv

/-- The invariant holds after reset, under every setting of the parameters. -/
def Obligations.ResetMeetsTheInvariant : Prop :=
  ∀ c : Config, ({ State.reset with config := c } : State).Inv

/-- Under any interleaving of steps and host actions, debug writes included, memory stays in its canonical form
and the parameters stay; and while the host makes no debug write the whole invariant stays. -/
def Obligations.EveryInterleavingKeepsTheInvariant : Prop :=
  ∀ (ms : List Move) (s : State), s.Inv →
    Memory.wf (s.moves ms).config.font (s.moves ms).mem ∧ (s.moves ms).config = s.config ∧
    ((∀ p n, .debugWrite p n ∉ ms) → (s.moves ms).Inv)
end

