-- ==== Sys2Proof/Laws/Decode.lean ====
section
/-! SUPPORT. The decoder: what each mask tests, the scan of the opcode map as a chain of tests on the word's
digits, and the fields of an encoded word. -/

namespace Sys2Proof

/-! ## The four masks of 30_encoding.md R74, as arithmetic on the word -/

theorem toNat_and_op (w : Word) : (w &&& 0xF000#16).toNat = w.toNat / 4096 * 4096 := by
  have e : w &&& 0xF000#16 = (w >>> 12) <<< 12 := by ext i hi; interval_cases i <;> simp
  have := w.isLt
  rw [e]; simp [Nat.shiftLeft_eq, Nat.shiftRight_eq_div_pow]; omega

theorem toNat_and_low (w : Word) (k : Nat) (hk : k ≤ 16) : (w &&& BitVec.ofNat 16 (2 ^ k - 1)).toNat = w.toNat % 2 ^ k := by
  have := Nat.pow_le_pow_right (n := 2) (by decide) hk
  rw [BitVec.toNat_and, BitVec.toNat_ofNat, Nat.mod_eq_of_lt (by omega), Nat.and_two_pow_sub_one_eq_mod]

theorem toNat_and_split (w m : Word) (k : Nat) (hk : k ≤ 12) (hm : m = 0xF000#16 ||| BitVec.ofNat 16 (2 ^ k - 1)) :
    (w &&& m).toNat = w.toNat / 4096 * 4096 + w.toNat % 2 ^ k := by
  have hp := Nat.pow_le_pow_right (n := 2) (by decide) hk
  have hlt := Nat.mod_lt w.toNat (Nat.two_pow_pos k)
  rw [hm, BitVec.and_or_distrib_left, BitVec.toNat_or, toNat_and_op, toNat_and_low w k (by omega)]
  rw [show w.toNat / 4096 * 4096 = 2 ^ 12 * (w.toNat / 4096) by omega]
  exact (Nat.two_pow_add_eq_or_of_lt (by omega) _).symm

/-- A word and a row's pattern, both split at the operation digit, agree exactly when both parts agree. -/
theorem split_eq_iff {a b c d : Nat} (hb : b < 4096) (hd : d < 4096) :
    a * 4096 + b = c * 4096 + d ↔ a = c ∧ b = d := by omega

theorem selects_exact (w : Word) (p : Nat) (hp : p < 4096) (b : Word → Instr) :
    (Row.mk (BitVec.ofNat 16 p) 0xFFFF#16 b).selects w = decide (w.toNat / 4096 = 0 ∧ w.toNat % 4096 = p) := by
  have e : w &&& 0xFFFF#16 = w := by ext i hi; interval_cases i <;> simp
  simp only [Row.selects, e, Bool.beq_eq_decide_eq, ← BitVec.toNat_inj, BitVec.toNat_ofNat, decide_eq_decide]
  omega

theorem selects_op (w : Word) (c : Nat) (hc : c < 16) (b : Word → Instr) :
    (Row.mk (BitVec.ofNat 16 (c * 4096)) 0xF000#16 b).selects w = decide (w.toNat / 4096 = c) := by
  simp only [Row.selects, Bool.beq_eq_decide_eq, ← BitVec.toNat_inj, toNat_and_op, BitVec.toNat_ofNat,
    decide_eq_decide]
  omega

theorem selects_opFn (w : Word) (c f : Nat) (hc : c < 16) (hf : f < 16) (b : Word → Instr) :
    (Row.mk (BitVec.ofNat 16 (c * 4096 + f)) 0xF00F#16 b).selects w =
      decide (w.toNat / 4096 = c ∧ w.toNat % 16 = f) := by
  simp only [Row.selects, Bool.beq_eq_decide_eq, ← BitVec.toNat_inj, BitVec.toNat_ofNat, decide_eq_decide,
    toNat_and_split w 0xF00F#16 4 (by decide) (by decide)]
  omega

theorem selects_opByte (w : Word) (c f : Nat) (hc : c < 16) (hf : f < 256) (b : Word → Instr) :
    (Row.mk (BitVec.ofNat 16 (c * 4096 + f)) 0xF0FF#16 b).selects w =
      decide (w.toNat / 4096 = c ∧ w.toNat % 256 = f) := by
  simp only [Row.selects, Bool.beq_eq_decide_eq, ← BitVec.toNat_inj, BitVec.toNat_ofNat, decide_eq_decide,
    toNat_and_split w 0xF0FF#16 8 (by decide) (by decide)]
  omega

/-! ## The scan as a chain of tests -/

theorem findSome_row (r : Row) (rs : List Row) (w : Word) :
    (r :: rs).findSome? (fun r => if r.selects w then some (r.build w) else none) =
      if r.selects w then some (r.build w)
      else rs.findSome? fun r => if r.selects w then some (r.build w) else none := by
  by_cases h : r.selects w <;> simp [h]

/-- First match in registration order (R75), with every mask as a test on the digits of the word. -/
theorem decode_eq (w : Word) :
    decode w =
      if w.toNat / 4096 = 0 ∧ w.toNat % 4096 = 224 then some (.cls) else
      if w.toNat / 4096 = 0 ∧ w.toNat % 4096 = 238 then some (.ret) else
      if w.toNat / 4096 = 0 then some (.sysAddr (fieldNnn w)) else
      if w.toNat / 4096 = 1 then some (.jpAddr (fieldNnn w)) else
      if w.toNat / 4096 = 2 then some (.callAddr (fieldNnn w)) else
      if w.toNat / 4096 = 3 then some (.seVxKk (fieldX w) (fieldKk w)) else
      if w.toNat / 4096 = 4 then some (.sneVxKk (fieldX w) (fieldKk w)) else
      if w.toNat / 4096 = 5 ∧ w.toNat % 16 = 0 then some (.seVxVy (fieldX w) (fieldY w)) else
      if w.toNat / 4096 = 6 then some (.ldVxKk (fieldX w) (fieldKk w)) else
      if w.toNat / 4096 = 7 then some (.addVxKk (fieldX w) (fieldKk w)) else
      if w.toNat / 4096 = 8 ∧ w.toNat % 16 = 0 then some (.ldVxVy (fieldX w) (fieldY w)) else
      if w.toNat / 4096 = 8 ∧ w.toNat % 16 = 1 then some (.orVxVy (fieldX w) (fieldY w)) else
      if w.toNat / 4096 = 8 ∧ w.toNat % 16 = 2 then some (.andVxVy (fieldX w) (fieldY w)) else
      if w.toNat / 4096 = 8 ∧ w.toNat % 16 = 3 then some (.xorVxVy (fieldX w) (fieldY w)) else
      if w.toNat / 4096 = 8 ∧ w.toNat % 16 = 4 then some (.addVxVy (fieldX w) (fieldY w)) else
      if w.toNat / 4096 = 8 ∧ w.toNat % 16 = 5 then some (.subVxVy (fieldX w) (fieldY w)) else
      if w.toNat / 4096 = 8 ∧ w.toNat % 16 = 6 then some (.shrVx (fieldX w) (fieldY w)) else
      if w.toNat / 4096 = 8 ∧ w.toNat % 16 = 7 then some (.subnVxVy (fieldX w) (fieldY w)) else
      if w.toNat / 4096 = 8 ∧ w.toNat % 16 = 14 then some (.shlVx (fieldX w) (fieldY w)) else
      if w.toNat / 4096 = 9 ∧ w.toNat % 16 = 0 then some (.sneVxVy (fieldX w) (fieldY w)) else
      if w.toNat / 4096 = 10 then some (.ldIAddr (fieldNnn w)) else
      if w.toNat / 4096 = 11 then some (.jpV0Addr (fieldNnn w)) else
      if w.toNat / 4096 = 12 then some (.rndVxKk (fieldX w) (fieldKk w)) else
      if w.toNat / 4096 = 13 then some (.drwVxVyN (fieldX w) (fieldY w) (fieldN w)) else
      if w.toNat / 4096 = 14 ∧ w.toNat % 256 = 158 then some (.skpVx (fieldX w)) else
      if w.toNat / 4096 = 14 ∧ w.toNat % 256 = 161 then some (.sknpVx (fieldX w)) else
      if w.toNat / 4096 = 15 ∧ w.toNat % 256 = 7 then some (.ldVxDt (fieldX w)) else
      if w.toNat / 4096 = 15 ∧ w.toNat % 256 = 10 then some (.ldVxK (fieldX w)) else
      if w.toNat / 4096 = 15 ∧ w.toNat % 256 = 21 then some (.ldDtVx (fieldX w)) else
      if w.toNat / 4096 = 15 ∧ w.toNat % 256 = 24 then some (.ldStVx (fieldX w)) else
      if w.toNat / 4096 = 15 ∧ w.toNat % 256 = 30 then some (.addIVx (fieldX w)) else
      if w.toNat / 4096 = 15 ∧ w.toNat % 256 = 41 then some (.ldFVx (fieldX w)) else
      if w.toNat / 4096 = 15 ∧ w.toNat % 256 = 51 then some (.ldBVx (fieldX w)) else
      if w.toNat / 4096 = 15 ∧ w.toNat % 256 = 85 then some (.ldMemVx (fieldX w)) else
      if w.toNat / 4096 = 15 ∧ w.toNat % 256 = 101 then some (.ldVxMem (fieldX w)) else
      none := by
  have h0 := selects_exact w 224 (by decide)
  have h1 := selects_exact w 238 (by decide)
  have h2 := selects_op w 0 (by decide)
  have h3 := selects_op w 1 (by decide)
  have h4 := selects_op w 2 (by decide)
  have h5 := selects_op w 3 (by decide)
  have h6 := selects_op w 4 (by decide)
  have h7 := selects_opFn w 5 0 (by decide) (by decide)
  have h8 := selects_op w 6 (by decide)
  have h9 := selects_op w 7 (by decide)
  have h10 := selects_opFn w 8 0 (by decide) (by decide)
  have h11 := selects_opFn w 8 1 (by decide) (by decide)
  have h12 := selects_opFn w 8 2 (by decide) (by decide)
  have h13 := selects_opFn w 8 3 (by decide) (by decide)
  have h14 := selects_opFn w 8 4 (by decide) (by decide)
  have h15 := selects_opFn w 8 5 (by decide) (by decide)
  have h16 := selects_opFn w 8 6 (by decide) (by decide)
  have h17 := selects_opFn w 8 7 (by decide) (by decide)
  have h18 := selects_opFn w 8 14 (by decide) (by decide)
  have h19 := selects_opFn w 9 0 (by decide) (by decide)
  have h20 := selects_op w 10 (by decide)
  have h21 := selects_op w 11 (by decide)
  have h22 := selects_op w 12 (by decide)
  have h23 := selects_op w 13 (by decide)
  have h24 := selects_opByte w 14 158 (by decide) (by decide)
  have h25 := selects_opByte w 14 161 (by decide) (by decide)
  have h26 := selects_opByte w 15 7 (by decide) (by decide)
  have h27 := selects_opByte w 15 10 (by decide) (by decide)
  have h28 := selects_opByte w 15 21 (by decide) (by decide)
  have h29 := selects_opByte w 15 24 (by decide) (by decide)
  have h30 := selects_opByte w 15 30 (by decide) (by decide)
  have h31 := selects_opByte w 15 41 (by decide) (by decide)
  have h32 := selects_opByte w 15 51 (by decide) (by decide)
  have h33 := selects_opByte w 15 85 (by decide) (by decide)
  have h34 := selects_opByte w 15 101 (by decide) (by decide)
  norm_num only at h0 h1 h2 h3 h4 h5 h6 h7 h8 h9 h10 h11 h12 h13 h14 h15 h16 h17 h18 h19 h20 h21 h22 h23 h24 h25 h26 h27 h28 h29 h30 h31 h32 h33 h34
  unfold decode opcodeMap rowsA rowsB rowsC rowsD
  simp only [List.cons_append, List.nil_append, findSome_row, List.findSome?_nil,
    h0, h1, h2, h3, h4, h5, h6, h7, h8, h9, h10, h11, h12, h13, h14, h15, h16, h17, h18, h19, h20, h21, h22, h23, h24, h25, h26, h27, h28, h29, h30, h31, h32, h33, h34, decide_eq_true_eq]

/-- A word decodes to nothing exactly when it selects no row (R76). -/
theorem decode_none_iff (w : Word) : decode w = none ↔ ∀ r ∈ opcodeMap, r.selects w = false := by
  simp [decode, List.findSome?_eq_none_iff]

/-- What a word decodes to is built by a row that it selects (R75). -/
theorem decode_some_row {w : Word} {i : Instr} (h : decode w = some i) :
    ∃ r ∈ opcodeMap, r.selects w = true ∧ r.build w = i := by
  obtain ⟨r, hr, e⟩ := List.exists_of_findSome?_eq_some h
  by_cases hs : r.selects w <;> simp [hs] at e
  exact ⟨r, hr, hs, e⟩

/-- A word that two rows select agrees with both patterns on the bits both masks test. -/
theorem patterns_agree {r q : Row} {w : Word} (hr : r.selects w = true) (hq : q.selects w = true) :
    r.mask &&& q.mask &&& (r.pattern ^^^ q.pattern) = 0 := by
  simp only [Row.selects, beq_iff_eq] at hr hq
  rw [← hr, ← hq]
  ext i hi
  simp
  cases r.mask[i] <;> cases q.mask[i] <;> simp

/-! ## The words the encoder gives, as numbers, and their fields -/

theorem toNat_encAddr (c : Nat) (nnn : Addr12) (hc : c < 16) : (encAddr c nnn).toNat = c * 4096 + nnn.toNat := by
  have := nnn.isLt
  simp only [encAddr, BitVec.toNat_ofNat]; omega

theorem toNat_encXkk (c : Nat) (x : RegIdx) (kk : Byte) (hc : c < 16) :
    (encXkk c x kk).toNat = c * 4096 + x.val * 256 + kk.toNat := by
  have := kk.isLt
  simp only [encXkk, BitVec.toNat_ofNat]; omega

theorem toNat_encXyf (c : Nat) (x y : RegIdx) (f : Nat) (hc : c < 16) (hf : f < 16) :
    (encXyf c x y f).toNat = c * 4096 + x.val * 256 + y.val * 16 + f := by
  simp only [encXyf, BitVec.toNat_ofNat]; omega

theorem toNat_encXff (c : Nat) (x : RegIdx) (ff : Nat) (hc : c < 16) (hf : ff < 256) :
    (encXff c x ff).toNat = c * 4096 + x.val * 256 + ff := by
  simp only [encXff, BitVec.toNat_ofNat]; omega

theorem fieldX_val (w : Word) : (fieldX w).val = w.toNat / 256 % 16 := rfl

theorem fieldY_val (w : Word) : (fieldY w).val = w.toNat / 16 % 16 := rfl

theorem fieldN_val (w : Word) : (fieldN w).val = w.toNat % 16 := rfl

theorem fieldKk_toNat (w : Word) : (fieldKk w).toNat = w.toNat % 256 := by simp [fieldKk]

theorem fieldNnn_toNat (w : Word) : (fieldNnn w).toNat = w.toNat % 4096 := by simp [fieldNnn]

/-- A field is determined by its number. -/
theorem fieldX_eq {w : Word} {x : RegIdx} (h : w.toNat / 256 % 16 = x.val) : fieldX w = x := Fin.ext h

theorem fieldY_eq {w : Word} {y : RegIdx} (h : w.toNat / 16 % 16 = y.val) : fieldY w = y := Fin.ext h

theorem fieldN_eq {w : Word} {n : Fin 16} (h : w.toNat % 16 = n.val) : fieldN w = n := Fin.ext h

theorem fieldKk_eq {w : Word} {kk : Byte} (h : w.toNat % 256 = kk.toNat) : fieldKk w = kk :=
  BitVec.eq_of_toNat_eq ((fieldKk_toNat w).trans h)

theorem fieldNnn_eq {w : Word} {nnn : Addr12} (h : w.toNat % 4096 = nnn.toNat) : fieldNnn w = nnn :=
  BitVec.eq_of_toNat_eq ((fieldNnn_toNat w).trans h)

/-- A big-endian word as a number (20_memory.md R53). -/
theorem toNat_wordOfBytes (hi lo : Byte) : (wordOfBytes hi lo).toNat = hi.toNat * 256 + lo.toNat := by
  rw [wordOfBytes, BitVec.toNat_append, Nat.shiftLeft_eq, Nat.mul_comm]
  exact (Nat.two_pow_add_eq_or_of_lt lo.isLt _).symm

/-- The two bytes of a word, high byte first, give it back. -/
theorem wordOfBytes_high_low (w : Word) : wordOfBytes (highByte w) (lowByte w) = w := by
  have := w.isLt
  apply BitVec.eq_of_toNat_eq
  rw [toNat_wordOfBytes]
  simp [highByte, lowByte, Nat.shiftRight_eq_div_pow]; omega

end Sys2Proof
end

