-- ==== Sys2Proof/Laws/State.lean ====
section
/-! SUPPORT. One lemma per field per update of State, true by rfl; then the updates that are conditional or
recursive, by their cases. -/

namespace Sys2Proof.Machine

variable (s : State)

@[simp] theorem State.setReg_v (x : RegIdx) (b : Byte) : (s.setReg x b).v = s.v.set x b := rfl
@[simp] theorem State.setReg_i (x : RegIdx) (b : Byte) : (s.setReg x b).i = s.i := rfl
@[simp] theorem State.setReg_pc (x : RegIdx) (b : Byte) : (s.setReg x b).pc = s.pc := rfl
@[simp] theorem State.setReg_sp (x : RegIdx) (b : Byte) : (s.setReg x b).sp = s.sp := rfl
@[simp] theorem State.setReg_stack (x : RegIdx) (b : Byte) : (s.setReg x b).stack = s.stack := rfl
@[simp] theorem State.setReg_dt (x : RegIdx) (b : Byte) : (s.setReg x b).dt = s.dt := rfl
@[simp] theorem State.setReg_st (x : RegIdx) (b : Byte) : (s.setReg x b).st = s.st := rfl
@[simp] theorem State.setReg_mem (x : RegIdx) (b : Byte) : (s.setReg x b).mem = s.mem := rfl
@[simp] theorem State.setReg_display (x : RegIdx) (b : Byte) : (s.setReg x b).display = s.display := rfl
@[simp] theorem State.setReg_keys (x : RegIdx) (b : Byte) : (s.setReg x b).keys = s.keys := rfl
@[simp] theorem State.setReg_fault (x : RegIdx) (b : Byte) : (s.setReg x b).fault = s.fault := rfl
@[simp] theorem State.setReg_faultPc (x : RegIdx) (b : Byte) : (s.setReg x b).faultPc = s.faultPc := rfl
@[simp] theorem State.setReg_faultOp (x : RegIdx) (b : Byte) : (s.setReg x b).faultOp = s.faultOp := rfl
@[simp] theorem State.setReg_config (x : RegIdx) (b : Byte) : (s.setReg x b).config = s.config := rfl
@[simp] theorem State.setReg_rndQueue (x : RegIdx) (b : Byte) : (s.setReg x b).rndQueue = s.rndQueue := rfl
@[simp] theorem State.setReg_rndDraws (x : RegIdx) (b : Byte) : (s.setReg x b).rndDraws = s.rndDraws := rfl
@[simp] theorem State.setReg_diags (x : RegIdx) (b : Byte) : (s.setReg x b).diags = s.diags := rfl

@[simp] theorem State.setIndex_v (w : Word) : (s.setIndex w).v = s.v := rfl
@[simp] theorem State.setIndex_i (w : Word) : (s.setIndex w).i = w := rfl
@[simp] theorem State.setIndex_pc (w : Word) : (s.setIndex w).pc = s.pc := rfl
@[simp] theorem State.setIndex_sp (w : Word) : (s.setIndex w).sp = s.sp := rfl
@[simp] theorem State.setIndex_stack (w : Word) : (s.setIndex w).stack = s.stack := rfl
@[simp] theorem State.setIndex_dt (w : Word) : (s.setIndex w).dt = s.dt := rfl
@[simp] theorem State.setIndex_st (w : Word) : (s.setIndex w).st = s.st := rfl
@[simp] theorem State.setIndex_mem (w : Word) : (s.setIndex w).mem = s.mem := rfl
@[simp] theorem State.setIndex_display (w : Word) : (s.setIndex w).display = s.display := rfl
@[simp] theorem State.setIndex_keys (w : Word) : (s.setIndex w).keys = s.keys := rfl
@[simp] theorem State.setIndex_fault (w : Word) : (s.setIndex w).fault = s.fault := rfl
@[simp] theorem State.setIndex_faultPc (w : Word) : (s.setIndex w).faultPc = s.faultPc := rfl
@[simp] theorem State.setIndex_faultOp (w : Word) : (s.setIndex w).faultOp = s.faultOp := rfl
@[simp] theorem State.setIndex_config (w : Word) : (s.setIndex w).config = s.config := rfl
@[simp] theorem State.setIndex_rndQueue (w : Word) : (s.setIndex w).rndQueue = s.rndQueue := rfl
@[simp] theorem State.setIndex_rndDraws (w : Word) : (s.setIndex w).rndDraws = s.rndDraws := rfl
@[simp] theorem State.setIndex_diags (w : Word) : (s.setIndex w).diags = s.diags := rfl

@[simp] theorem State.setPc_v (w : Word) : (s.setPc w).v = s.v := rfl
@[simp] theorem State.setPc_i (w : Word) : (s.setPc w).i = s.i := rfl
@[simp] theorem State.setPc_pc (w : Word) : (s.setPc w).pc = w := rfl
@[simp] theorem State.setPc_sp (w : Word) : (s.setPc w).sp = s.sp := rfl
@[simp] theorem State.setPc_stack (w : Word) : (s.setPc w).stack = s.stack := rfl
@[simp] theorem State.setPc_dt (w : Word) : (s.setPc w).dt = s.dt := rfl
@[simp] theorem State.setPc_st (w : Word) : (s.setPc w).st = s.st := rfl
@[simp] theorem State.setPc_mem (w : Word) : (s.setPc w).mem = s.mem := rfl
@[simp] theorem State.setPc_display (w : Word) : (s.setPc w).display = s.display := rfl
@[simp] theorem State.setPc_keys (w : Word) : (s.setPc w).keys = s.keys := rfl
@[simp] theorem State.setPc_fault (w : Word) : (s.setPc w).fault = s.fault := rfl
@[simp] theorem State.setPc_faultPc (w : Word) : (s.setPc w).faultPc = s.faultPc := rfl
@[simp] theorem State.setPc_faultOp (w : Word) : (s.setPc w).faultOp = s.faultOp := rfl
@[simp] theorem State.setPc_config (w : Word) : (s.setPc w).config = s.config := rfl
@[simp] theorem State.setPc_rndQueue (w : Word) : (s.setPc w).rndQueue = s.rndQueue := rfl
@[simp] theorem State.setPc_rndDraws (w : Word) : (s.setPc w).rndDraws = s.rndDraws := rfl
@[simp] theorem State.setPc_diags (w : Word) : (s.setPc w).diags = s.diags := rfl

@[simp] theorem State.memWrite_v (a : Nat) (b : Byte) : (s.memWrite a b).v = s.v := rfl
@[simp] theorem State.memWrite_i (a : Nat) (b : Byte) : (s.memWrite a b).i = s.i := rfl
@[simp] theorem State.memWrite_pc (a : Nat) (b : Byte) : (s.memWrite a b).pc = s.pc := rfl
@[simp] theorem State.memWrite_sp (a : Nat) (b : Byte) : (s.memWrite a b).sp = s.sp := rfl
@[simp] theorem State.memWrite_stack (a : Nat) (b : Byte) : (s.memWrite a b).stack = s.stack := rfl
@[simp] theorem State.memWrite_dt (a : Nat) (b : Byte) : (s.memWrite a b).dt = s.dt := rfl
@[simp] theorem State.memWrite_st (a : Nat) (b : Byte) : (s.memWrite a b).st = s.st := rfl
@[simp] theorem State.memWrite_mem (a : Nat) (b : Byte) : (s.memWrite a b).mem = Memory.write s.config.font s.mem (a % 4096) b := rfl
@[simp] theorem State.memWrite_display (a : Nat) (b : Byte) : (s.memWrite a b).display = s.display := rfl
@[simp] theorem State.memWrite_keys (a : Nat) (b : Byte) : (s.memWrite a b).keys = s.keys := rfl
@[simp] theorem State.memWrite_fault (a : Nat) (b : Byte) : (s.memWrite a b).fault = s.fault := rfl
@[simp] theorem State.memWrite_faultPc (a : Nat) (b : Byte) : (s.memWrite a b).faultPc = s.faultPc := rfl
@[simp] theorem State.memWrite_faultOp (a : Nat) (b : Byte) : (s.memWrite a b).faultOp = s.faultOp := rfl
@[simp] theorem State.memWrite_config (a : Nat) (b : Byte) : (s.memWrite a b).config = s.config := rfl
@[simp] theorem State.memWrite_rndQueue (a : Nat) (b : Byte) : (s.memWrite a b).rndQueue = s.rndQueue := rfl
@[simp] theorem State.memWrite_rndDraws (a : Nat) (b : Byte) : (s.memWrite a b).rndDraws = s.rndDraws := rfl
@[simp] theorem State.memWrite_diags (a : Nat) (b : Byte) : (s.memWrite a b).diags = s.diags := rfl

@[simp] theorem State.loadRegs_i (a : Nat) (x : RegIdx) : (s.loadRegs a x).i = s.i := rfl
@[simp] theorem State.loadRegs_pc (a : Nat) (x : RegIdx) : (s.loadRegs a x).pc = s.pc := rfl
@[simp] theorem State.loadRegs_sp (a : Nat) (x : RegIdx) : (s.loadRegs a x).sp = s.sp := rfl
@[simp] theorem State.loadRegs_stack (a : Nat) (x : RegIdx) : (s.loadRegs a x).stack = s.stack := rfl
@[simp] theorem State.loadRegs_dt (a : Nat) (x : RegIdx) : (s.loadRegs a x).dt = s.dt := rfl
@[simp] theorem State.loadRegs_st (a : Nat) (x : RegIdx) : (s.loadRegs a x).st = s.st := rfl
@[simp] theorem State.loadRegs_mem (a : Nat) (x : RegIdx) : (s.loadRegs a x).mem = s.mem := rfl
@[simp] theorem State.loadRegs_display (a : Nat) (x : RegIdx) : (s.loadRegs a x).display = s.display := rfl
@[simp] theorem State.loadRegs_keys (a : Nat) (x : RegIdx) : (s.loadRegs a x).keys = s.keys := rfl
@[simp] theorem State.loadRegs_fault (a : Nat) (x : RegIdx) : (s.loadRegs a x).fault = s.fault := rfl
@[simp] theorem State.loadRegs_faultPc (a : Nat) (x : RegIdx) : (s.loadRegs a x).faultPc = s.faultPc := rfl
@[simp] theorem State.loadRegs_faultOp (a : Nat) (x : RegIdx) : (s.loadRegs a x).faultOp = s.faultOp := rfl
@[simp] theorem State.loadRegs_config (a : Nat) (x : RegIdx) : (s.loadRegs a x).config = s.config := rfl
@[simp] theorem State.loadRegs_rndQueue (a : Nat) (x : RegIdx) : (s.loadRegs a x).rndQueue = s.rndQueue := rfl
@[simp] theorem State.loadRegs_rndDraws (a : Nat) (x : RegIdx) : (s.loadRegs a x).rndDraws = s.rndDraws := rfl
@[simp] theorem State.loadRegs_diags (a : Nat) (x : RegIdx) : (s.loadRegs a x).diags = s.diags := rfl

@[simp] theorem State.push_v (w : Word) : (s.push w).v = s.v := rfl
@[simp] theorem State.push_i (w : Word) : (s.push w).i = s.i := rfl
@[simp] theorem State.push_pc (w : Word) : (s.push w).pc = s.pc := rfl
@[simp] theorem State.push_sp (w : Word) : (s.push w).sp = Fin.ofNat 17 (s.sp.val + 1) := rfl
@[simp] theorem State.push_stack (w : Word) : (s.push w).stack = s.stack.setIfInBounds s.sp.val w := rfl
@[simp] theorem State.push_dt (w : Word) : (s.push w).dt = s.dt := rfl
@[simp] theorem State.push_st (w : Word) : (s.push w).st = s.st := rfl
@[simp] theorem State.push_mem (w : Word) : (s.push w).mem = s.mem := rfl
@[simp] theorem State.push_display (w : Word) : (s.push w).display = s.display := rfl
@[simp] theorem State.push_keys (w : Word) : (s.push w).keys = s.keys := rfl
@[simp] theorem State.push_fault (w : Word) : (s.push w).fault = s.fault := rfl
@[simp] theorem State.push_faultPc (w : Word) : (s.push w).faultPc = s.faultPc := rfl
@[simp] theorem State.push_faultOp (w : Word) : (s.push w).faultOp = s.faultOp := rfl
@[simp] theorem State.push_config (w : Word) : (s.push w).config = s.config := rfl
@[simp] theorem State.push_rndQueue (w : Word) : (s.push w).rndQueue = s.rndQueue := rfl
@[simp] theorem State.push_rndDraws (w : Word) : (s.push w).rndDraws = s.rndDraws := rfl
@[simp] theorem State.push_diags (w : Word) : (s.push w).diags = s.diags := rfl

@[simp] theorem State.pop_v : (s.pop).v = s.v := rfl
@[simp] theorem State.pop_i : (s.pop).i = s.i := rfl
@[simp] theorem State.pop_pc : (s.pop).pc = s.pc := rfl
@[simp] theorem State.pop_sp : (s.pop).sp = Fin.ofNat 17 (s.sp.val - 1) := rfl
@[simp] theorem State.pop_stack : (s.pop).stack = s.stack := rfl
@[simp] theorem State.pop_dt : (s.pop).dt = s.dt := rfl
@[simp] theorem State.pop_st : (s.pop).st = s.st := rfl
@[simp] theorem State.pop_mem : (s.pop).mem = s.mem := rfl
@[simp] theorem State.pop_display : (s.pop).display = s.display := rfl
@[simp] theorem State.pop_keys : (s.pop).keys = s.keys := rfl
@[simp] theorem State.pop_fault : (s.pop).fault = s.fault := rfl
@[simp] theorem State.pop_faultPc : (s.pop).faultPc = s.faultPc := rfl
@[simp] theorem State.pop_faultOp : (s.pop).faultOp = s.faultOp := rfl
@[simp] theorem State.pop_config : (s.pop).config = s.config := rfl
@[simp] theorem State.pop_rndQueue : (s.pop).rndQueue = s.rndQueue := rfl
@[simp] theorem State.pop_rndDraws : (s.pop).rndDraws = s.rndDraws := rfl
@[simp] theorem State.pop_diags : (s.pop).diags = s.diags := rfl

@[simp] theorem State.flipPixel_v (px : Fin 64) (py : Fin 32) : (s.flipPixel px py).v = s.v := rfl
@[simp] theorem State.flipPixel_i (px : Fin 64) (py : Fin 32) : (s.flipPixel px py).i = s.i := rfl
@[simp] theorem State.flipPixel_pc (px : Fin 64) (py : Fin 32) : (s.flipPixel px py).pc = s.pc := rfl
@[simp] theorem State.flipPixel_sp (px : Fin 64) (py : Fin 32) : (s.flipPixel px py).sp = s.sp := rfl
@[simp] theorem State.flipPixel_stack (px : Fin 64) (py : Fin 32) : (s.flipPixel px py).stack = s.stack := rfl
@[simp] theorem State.flipPixel_dt (px : Fin 64) (py : Fin 32) : (s.flipPixel px py).dt = s.dt := rfl
@[simp] theorem State.flipPixel_st (px : Fin 64) (py : Fin 32) : (s.flipPixel px py).st = s.st := rfl
@[simp] theorem State.flipPixel_mem (px : Fin 64) (py : Fin 32) : (s.flipPixel px py).mem = s.mem := rfl
@[simp] theorem State.flipPixel_keys (px : Fin 64) (py : Fin 32) : (s.flipPixel px py).keys = s.keys := rfl
@[simp] theorem State.flipPixel_fault (px : Fin 64) (py : Fin 32) : (s.flipPixel px py).fault = s.fault := rfl
@[simp] theorem State.flipPixel_faultPc (px : Fin 64) (py : Fin 32) : (s.flipPixel px py).faultPc = s.faultPc := rfl
@[simp] theorem State.flipPixel_faultOp (px : Fin 64) (py : Fin 32) : (s.flipPixel px py).faultOp = s.faultOp := rfl
@[simp] theorem State.flipPixel_config (px : Fin 64) (py : Fin 32) : (s.flipPixel px py).config = s.config := rfl
@[simp] theorem State.flipPixel_rndQueue (px : Fin 64) (py : Fin 32) : (s.flipPixel px py).rndQueue = s.rndQueue := rfl
@[simp] theorem State.flipPixel_rndDraws (px : Fin 64) (py : Fin 32) : (s.flipPixel px py).rndDraws = s.rndDraws := rfl
@[simp] theorem State.flipPixel_diags (px : Fin 64) (py : Fin 32) : (s.flipPixel px py).diags = s.diags := rfl

@[simp] theorem State.clearDisplay_v : (s.clearDisplay).v = s.v := rfl
@[simp] theorem State.clearDisplay_i : (s.clearDisplay).i = s.i := rfl
@[simp] theorem State.clearDisplay_pc : (s.clearDisplay).pc = s.pc := rfl
@[simp] theorem State.clearDisplay_sp : (s.clearDisplay).sp = s.sp := rfl
@[simp] theorem State.clearDisplay_stack : (s.clearDisplay).stack = s.stack := rfl
@[simp] theorem State.clearDisplay_dt : (s.clearDisplay).dt = s.dt := rfl
@[simp] theorem State.clearDisplay_st : (s.clearDisplay).st = s.st := rfl
@[simp] theorem State.clearDisplay_mem : (s.clearDisplay).mem = s.mem := rfl
@[simp] theorem State.clearDisplay_display : (s.clearDisplay).display = Vector.replicate 32 0 := rfl
@[simp] theorem State.clearDisplay_keys : (s.clearDisplay).keys = s.keys := rfl
@[simp] theorem State.clearDisplay_fault : (s.clearDisplay).fault = s.fault := rfl
@[simp] theorem State.clearDisplay_faultPc : (s.clearDisplay).faultPc = s.faultPc := rfl
@[simp] theorem State.clearDisplay_faultOp : (s.clearDisplay).faultOp = s.faultOp := rfl
@[simp] theorem State.clearDisplay_config : (s.clearDisplay).config = s.config := rfl
@[simp] theorem State.clearDisplay_rndQueue : (s.clearDisplay).rndQueue = s.rndQueue := rfl
@[simp] theorem State.clearDisplay_rndDraws : (s.clearDisplay).rndDraws = s.rndDraws := rfl
@[simp] theorem State.clearDisplay_diags : (s.clearDisplay).diags = s.diags := rfl

@[simp] theorem State.timerDecrement_v : (s.timerDecrement).v = s.v := rfl
@[simp] theorem State.timerDecrement_i : (s.timerDecrement).i = s.i := rfl
@[simp] theorem State.timerDecrement_pc : (s.timerDecrement).pc = s.pc := rfl
@[simp] theorem State.timerDecrement_sp : (s.timerDecrement).sp = s.sp := rfl
@[simp] theorem State.timerDecrement_stack : (s.timerDecrement).stack = s.stack := rfl
@[simp] theorem State.timerDecrement_dt : (s.timerDecrement).dt = timerDown s.dt := rfl
@[simp] theorem State.timerDecrement_st : (s.timerDecrement).st = timerDown s.st := rfl
@[simp] theorem State.timerDecrement_mem : (s.timerDecrement).mem = s.mem := rfl
@[simp] theorem State.timerDecrement_display : (s.timerDecrement).display = s.display := rfl
@[simp] theorem State.timerDecrement_keys : (s.timerDecrement).keys = s.keys := rfl
@[simp] theorem State.timerDecrement_fault : (s.timerDecrement).fault = s.fault := rfl
@[simp] theorem State.timerDecrement_faultPc : (s.timerDecrement).faultPc = s.faultPc := rfl
@[simp] theorem State.timerDecrement_faultOp : (s.timerDecrement).faultOp = s.faultOp := rfl
@[simp] theorem State.timerDecrement_config : (s.timerDecrement).config = s.config := rfl
@[simp] theorem State.timerDecrement_rndQueue : (s.timerDecrement).rndQueue = s.rndQueue := rfl
@[simp] theorem State.timerDecrement_rndDraws : (s.timerDecrement).rndDraws = s.rndDraws := rfl
@[simp] theorem State.timerDecrement_diags : (s.timerDecrement).diags = s.diags := rfl

@[simp] theorem State.rndTaken_v : (s.rndTaken).v = s.v := rfl
@[simp] theorem State.rndTaken_i : (s.rndTaken).i = s.i := rfl
@[simp] theorem State.rndTaken_pc : (s.rndTaken).pc = s.pc := rfl
@[simp] theorem State.rndTaken_sp : (s.rndTaken).sp = s.sp := rfl
@[simp] theorem State.rndTaken_stack : (s.rndTaken).stack = s.stack := rfl
@[simp] theorem State.rndTaken_dt : (s.rndTaken).dt = s.dt := rfl
@[simp] theorem State.rndTaken_st : (s.rndTaken).st = s.st := rfl
@[simp] theorem State.rndTaken_mem : (s.rndTaken).mem = s.mem := rfl
@[simp] theorem State.rndTaken_display : (s.rndTaken).display = s.display := rfl
@[simp] theorem State.rndTaken_keys : (s.rndTaken).keys = s.keys := rfl
@[simp] theorem State.rndTaken_fault : (s.rndTaken).fault = s.fault := rfl
@[simp] theorem State.rndTaken_faultPc : (s.rndTaken).faultPc = s.faultPc := rfl
@[simp] theorem State.rndTaken_faultOp : (s.rndTaken).faultOp = s.faultOp := rfl
@[simp] theorem State.rndTaken_config : (s.rndTaken).config = s.config := rfl
@[simp] theorem State.rndTaken_rndQueue : (s.rndTaken).rndQueue = s.rndQueue.tail := rfl
@[simp] theorem State.rndTaken_rndDraws : (s.rndTaken).rndDraws = s.rndDraws + 1 := rfl
@[simp] theorem State.rndTaken_diags : (s.rndTaken).diags = s.diags := rfl

@[simp] theorem State.emitDiag_v (p w : Word) : (s.emitDiag p w).v = s.v := rfl
@[simp] theorem State.emitDiag_i (p w : Word) : (s.emitDiag p w).i = s.i := rfl
@[simp] theorem State.emitDiag_pc (p w : Word) : (s.emitDiag p w).pc = s.pc := rfl
@[simp] theorem State.emitDiag_sp (p w : Word) : (s.emitDiag p w).sp = s.sp := rfl
@[simp] theorem State.emitDiag_stack (p w : Word) : (s.emitDiag p w).stack = s.stack := rfl
@[simp] theorem State.emitDiag_dt (p w : Word) : (s.emitDiag p w).dt = s.dt := rfl
@[simp] theorem State.emitDiag_st (p w : Word) : (s.emitDiag p w).st = s.st := rfl
@[simp] theorem State.emitDiag_mem (p w : Word) : (s.emitDiag p w).mem = s.mem := rfl
@[simp] theorem State.emitDiag_display (p w : Word) : (s.emitDiag p w).display = s.display := rfl
@[simp] theorem State.emitDiag_keys (p w : Word) : (s.emitDiag p w).keys = s.keys := rfl
@[simp] theorem State.emitDiag_fault (p w : Word) : (s.emitDiag p w).fault = s.fault := rfl
@[simp] theorem State.emitDiag_faultPc (p w : Word) : (s.emitDiag p w).faultPc = s.faultPc := rfl
@[simp] theorem State.emitDiag_faultOp (p w : Word) : (s.emitDiag p w).faultOp = s.faultOp := rfl
@[simp] theorem State.emitDiag_config (p w : Word) : (s.emitDiag p w).config = s.config := rfl
@[simp] theorem State.emitDiag_rndQueue (p w : Word) : (s.emitDiag p w).rndQueue = s.rndQueue := rfl
@[simp] theorem State.emitDiag_rndDraws (p w : Word) : (s.emitDiag p w).rndDraws = s.rndDraws := rfl
@[simp] theorem State.emitDiag_diags (p w : Word) : (s.emitDiag p w).diags = s.diags ++ [⟨p, w⟩] := rfl

@[simp] theorem State.advance_v : (s.advance).v = s.v := rfl
@[simp] theorem State.advance_i : (s.advance).i = s.i := rfl
@[simp] theorem State.advance_pc : (s.advance).pc = s.pc + 2 := rfl
@[simp] theorem State.advance_sp : (s.advance).sp = s.sp := rfl
@[simp] theorem State.advance_stack : (s.advance).stack = s.stack := rfl
@[simp] theorem State.advance_dt : (s.advance).dt = s.dt := rfl
@[simp] theorem State.advance_st : (s.advance).st = s.st := rfl
@[simp] theorem State.advance_mem : (s.advance).mem = s.mem := rfl
@[simp] theorem State.advance_display : (s.advance).display = s.display := rfl
@[simp] theorem State.advance_keys : (s.advance).keys = s.keys := rfl
@[simp] theorem State.advance_fault : (s.advance).fault = s.fault := rfl
@[simp] theorem State.advance_faultPc : (s.advance).faultPc = s.faultPc := rfl
@[simp] theorem State.advance_faultOp : (s.advance).faultOp = s.faultOp := rfl
@[simp] theorem State.advance_config : (s.advance).config = s.config := rfl
@[simp] theorem State.advance_rndQueue : (s.advance).rndQueue = s.rndQueue := rfl
@[simp] theorem State.advance_rndDraws : (s.advance).rndDraws = s.rndDraws := rfl
@[simp] theorem State.advance_diags : (s.advance).diags = s.diags := rfl

@[simp] theorem State.raiseFault_v (c : FaultCode) (w : Word) : (s.raiseFault c w).v = s.v := rfl
@[simp] theorem State.raiseFault_i (c : FaultCode) (w : Word) : (s.raiseFault c w).i = s.i := rfl
@[simp] theorem State.raiseFault_pc (c : FaultCode) (w : Word) : (s.raiseFault c w).pc = s.pc - 2 := rfl
@[simp] theorem State.raiseFault_sp (c : FaultCode) (w : Word) : (s.raiseFault c w).sp = s.sp := rfl
@[simp] theorem State.raiseFault_stack (c : FaultCode) (w : Word) : (s.raiseFault c w).stack = s.stack := rfl
@[simp] theorem State.raiseFault_dt (c : FaultCode) (w : Word) : (s.raiseFault c w).dt = s.dt := rfl
@[simp] theorem State.raiseFault_st (c : FaultCode) (w : Word) : (s.raiseFault c w).st = s.st := rfl
@[simp] theorem State.raiseFault_mem (c : FaultCode) (w : Word) : (s.raiseFault c w).mem = s.mem := rfl
@[simp] theorem State.raiseFault_display (c : FaultCode) (w : Word) : (s.raiseFault c w).display = s.display := rfl
@[simp] theorem State.raiseFault_keys (c : FaultCode) (w : Word) : (s.raiseFault c w).keys = s.keys := rfl
@[simp] theorem State.raiseFault_fault (c : FaultCode) (w : Word) : (s.raiseFault c w).fault = c := rfl
@[simp] theorem State.raiseFault_faultPc (c : FaultCode) (w : Word) : (s.raiseFault c w).faultPc = s.pc - 2 := rfl
@[simp] theorem State.raiseFault_faultOp (c : FaultCode) (w : Word) : (s.raiseFault c w).faultOp = w := rfl
@[simp] theorem State.raiseFault_config (c : FaultCode) (w : Word) : (s.raiseFault c w).config = s.config := rfl
@[simp] theorem State.raiseFault_rndQueue (c : FaultCode) (w : Word) : (s.raiseFault c w).rndQueue = s.rndQueue := rfl
@[simp] theorem State.raiseFault_rndDraws (c : FaultCode) (w : Word) : (s.raiseFault c w).rndDraws = s.rndDraws := rfl
@[simp] theorem State.raiseFault_diags (c : FaultCode) (w : Word) : (s.raiseFault c w).diags = s.diags := rfl

@[simp] theorem State.clearFault_v : (s.clearFault).v = s.v := rfl
@[simp] theorem State.clearFault_i : (s.clearFault).i = s.i := rfl
@[simp] theorem State.clearFault_pc : (s.clearFault).pc = s.pc := rfl
@[simp] theorem State.clearFault_sp : (s.clearFault).sp = s.sp := rfl
@[simp] theorem State.clearFault_stack : (s.clearFault).stack = s.stack := rfl
@[simp] theorem State.clearFault_dt : (s.clearFault).dt = s.dt := rfl
@[simp] theorem State.clearFault_st : (s.clearFault).st = s.st := rfl
@[simp] theorem State.clearFault_mem : (s.clearFault).mem = s.mem := rfl
@[simp] theorem State.clearFault_display : (s.clearFault).display = s.display := rfl
@[simp] theorem State.clearFault_keys : (s.clearFault).keys = s.keys := rfl
@[simp] theorem State.clearFault_fault : (s.clearFault).fault = .noFault := rfl
@[simp] theorem State.clearFault_faultPc : (s.clearFault).faultPc = 0 := rfl
@[simp] theorem State.clearFault_faultOp : (s.clearFault).faultOp = 0 := rfl
@[simp] theorem State.clearFault_config : (s.clearFault).config = s.config := rfl
@[simp] theorem State.clearFault_rndQueue : (s.clearFault).rndQueue = s.rndQueue := rfl
@[simp] theorem State.clearFault_rndDraws : (s.clearFault).rndDraws = s.rndDraws := rfl
@[simp] theorem State.clearFault_diags : (s.clearFault).diags = s.diags := rfl

@[simp] theorem State.setKey_v (k : KeyIdx) (b : Bool) : (s.setKey k b).v = s.v := rfl
@[simp] theorem State.setKey_i (k : KeyIdx) (b : Bool) : (s.setKey k b).i = s.i := rfl
@[simp] theorem State.setKey_pc (k : KeyIdx) (b : Bool) : (s.setKey k b).pc = s.pc := rfl
@[simp] theorem State.setKey_sp (k : KeyIdx) (b : Bool) : (s.setKey k b).sp = s.sp := rfl
@[simp] theorem State.setKey_stack (k : KeyIdx) (b : Bool) : (s.setKey k b).stack = s.stack := rfl
@[simp] theorem State.setKey_dt (k : KeyIdx) (b : Bool) : (s.setKey k b).dt = s.dt := rfl
@[simp] theorem State.setKey_st (k : KeyIdx) (b : Bool) : (s.setKey k b).st = s.st := rfl
@[simp] theorem State.setKey_mem (k : KeyIdx) (b : Bool) : (s.setKey k b).mem = s.mem := rfl
@[simp] theorem State.setKey_display (k : KeyIdx) (b : Bool) : (s.setKey k b).display = s.display := rfl
@[simp] theorem State.setKey_keys (k : KeyIdx) (b : Bool) : (s.setKey k b).keys = s.keys.set k b := rfl
@[simp] theorem State.setKey_fault (k : KeyIdx) (b : Bool) : (s.setKey k b).fault = s.fault := rfl
@[simp] theorem State.setKey_faultPc (k : KeyIdx) (b : Bool) : (s.setKey k b).faultPc = s.faultPc := rfl
@[simp] theorem State.setKey_faultOp (k : KeyIdx) (b : Bool) : (s.setKey k b).faultOp = s.faultOp := rfl
@[simp] theorem State.setKey_config (k : KeyIdx) (b : Bool) : (s.setKey k b).config = s.config := rfl
@[simp] theorem State.setKey_rndQueue (k : KeyIdx) (b : Bool) : (s.setKey k b).rndQueue = s.rndQueue := rfl
@[simp] theorem State.setKey_rndDraws (k : KeyIdx) (b : Bool) : (s.setKey k b).rndDraws = s.rndDraws := rfl
@[simp] theorem State.setKey_diags (k : KeyIdx) (b : Bool) : (s.setKey k b).diags = s.diags := rfl

@[simp] theorem State.supplyRnd_v (b : Byte) : (s.supplyRnd b).v = s.v := rfl
@[simp] theorem State.supplyRnd_i (b : Byte) : (s.supplyRnd b).i = s.i := rfl
@[simp] theorem State.supplyRnd_pc (b : Byte) : (s.supplyRnd b).pc = s.pc := rfl
@[simp] theorem State.supplyRnd_sp (b : Byte) : (s.supplyRnd b).sp = s.sp := rfl
@[simp] theorem State.supplyRnd_stack (b : Byte) : (s.supplyRnd b).stack = s.stack := rfl
@[simp] theorem State.supplyRnd_dt (b : Byte) : (s.supplyRnd b).dt = s.dt := rfl
@[simp] theorem State.supplyRnd_st (b : Byte) : (s.supplyRnd b).st = s.st := rfl
@[simp] theorem State.supplyRnd_mem (b : Byte) : (s.supplyRnd b).mem = s.mem := rfl
@[simp] theorem State.supplyRnd_display (b : Byte) : (s.supplyRnd b).display = s.display := rfl
@[simp] theorem State.supplyRnd_keys (b : Byte) : (s.supplyRnd b).keys = s.keys := rfl
@[simp] theorem State.supplyRnd_fault (b : Byte) : (s.supplyRnd b).fault = s.fault := rfl
@[simp] theorem State.supplyRnd_faultPc (b : Byte) : (s.supplyRnd b).faultPc = s.faultPc := rfl
@[simp] theorem State.supplyRnd_faultOp (b : Byte) : (s.supplyRnd b).faultOp = s.faultOp := rfl
@[simp] theorem State.supplyRnd_config (b : Byte) : (s.supplyRnd b).config = s.config := rfl
@[simp] theorem State.supplyRnd_rndQueue (b : Byte) : (s.supplyRnd b).rndQueue = s.rndQueue ++ [b] := rfl
@[simp] theorem State.supplyRnd_rndDraws (b : Byte) : (s.supplyRnd b).rndDraws = s.rndDraws := rfl
@[simp] theorem State.supplyRnd_diags (b : Byte) : (s.supplyRnd b).diags = s.diags := rfl

@[simp] theorem State.setFlagThenReg_v (g : Byte) (x : RegIdx) (b : Byte) : (s.setFlagThenReg g x b).v = (s.v.set 15 g).set x b := rfl
@[simp] theorem State.setFlagThenReg_i (g : Byte) (x : RegIdx) (b : Byte) : (s.setFlagThenReg g x b).i = s.i := rfl
@[simp] theorem State.setFlagThenReg_pc (g : Byte) (x : RegIdx) (b : Byte) : (s.setFlagThenReg g x b).pc = s.pc := rfl
@[simp] theorem State.setFlagThenReg_sp (g : Byte) (x : RegIdx) (b : Byte) : (s.setFlagThenReg g x b).sp = s.sp := rfl
@[simp] theorem State.setFlagThenReg_stack (g : Byte) (x : RegIdx) (b : Byte) : (s.setFlagThenReg g x b).stack = s.stack := rfl
@[simp] theorem State.setFlagThenReg_dt (g : Byte) (x : RegIdx) (b : Byte) : (s.setFlagThenReg g x b).dt = s.dt := rfl
@[simp] theorem State.setFlagThenReg_st (g : Byte) (x : RegIdx) (b : Byte) : (s.setFlagThenReg g x b).st = s.st := rfl
@[simp] theorem State.setFlagThenReg_mem (g : Byte) (x : RegIdx) (b : Byte) : (s.setFlagThenReg g x b).mem = s.mem := rfl
@[simp] theorem State.setFlagThenReg_display (g : Byte) (x : RegIdx) (b : Byte) : (s.setFlagThenReg g x b).display = s.display := rfl
@[simp] theorem State.setFlagThenReg_keys (g : Byte) (x : RegIdx) (b : Byte) : (s.setFlagThenReg g x b).keys = s.keys := rfl
@[simp] theorem State.setFlagThenReg_fault (g : Byte) (x : RegIdx) (b : Byte) : (s.setFlagThenReg g x b).fault = s.fault := rfl
@[simp] theorem State.setFlagThenReg_faultPc (g : Byte) (x : RegIdx) (b : Byte) : (s.setFlagThenReg g x b).faultPc = s.faultPc := rfl
@[simp] theorem State.setFlagThenReg_faultOp (g : Byte) (x : RegIdx) (b : Byte) : (s.setFlagThenReg g x b).faultOp = s.faultOp := rfl
@[simp] theorem State.setFlagThenReg_config (g : Byte) (x : RegIdx) (b : Byte) : (s.setFlagThenReg g x b).config = s.config := rfl
@[simp] theorem State.setFlagThenReg_rndQueue (g : Byte) (x : RegIdx) (b : Byte) : (s.setFlagThenReg g x b).rndQueue = s.rndQueue := rfl
@[simp] theorem State.setFlagThenReg_rndDraws (g : Byte) (x : RegIdx) (b : Byte) : (s.setFlagThenReg g x b).rndDraws = s.rndDraws := rfl
@[simp] theorem State.setFlagThenReg_diags (g : Byte) (x : RegIdx) (b : Byte) : (s.setFlagThenReg g x b).diags = s.diags := rfl

@[simp] theorem State.skipIf_v (c : Bool) : (s.skipIf c).v = s.v := by cases c <;> rfl
@[simp] theorem State.skipIf_i (c : Bool) : (s.skipIf c).i = s.i := by cases c <;> rfl
@[simp] theorem State.skipIf_pc (c : Bool) : (s.skipIf c).pc = if c then s.pc + 2 else s.pc := by
  cases c <;> rfl
@[simp] theorem State.skipIf_sp (c : Bool) : (s.skipIf c).sp = s.sp := by cases c <;> rfl
@[simp] theorem State.skipIf_stack (c : Bool) : (s.skipIf c).stack = s.stack := by cases c <;> rfl
@[simp] theorem State.skipIf_dt (c : Bool) : (s.skipIf c).dt = s.dt := by cases c <;> rfl
@[simp] theorem State.skipIf_st (c : Bool) : (s.skipIf c).st = s.st := by cases c <;> rfl
@[simp] theorem State.skipIf_mem (c : Bool) : (s.skipIf c).mem = s.mem := by cases c <;> rfl
@[simp] theorem State.skipIf_display (c : Bool) : (s.skipIf c).display = s.display := by cases c <;> rfl
@[simp] theorem State.skipIf_keys (c : Bool) : (s.skipIf c).keys = s.keys := by cases c <;> rfl
@[simp] theorem State.skipIf_fault (c : Bool) : (s.skipIf c).fault = s.fault := by cases c <;> rfl
@[simp] theorem State.skipIf_faultPc (c : Bool) : (s.skipIf c).faultPc = s.faultPc := by cases c <;> rfl
@[simp] theorem State.skipIf_faultOp (c : Bool) : (s.skipIf c).faultOp = s.faultOp := by cases c <;> rfl
@[simp] theorem State.skipIf_config (c : Bool) : (s.skipIf c).config = s.config := by cases c <;> rfl
@[simp] theorem State.skipIf_rndQueue (c : Bool) : (s.skipIf c).rndQueue = s.rndQueue := by cases c <;> rfl
@[simp] theorem State.skipIf_rndDraws (c : Bool) : (s.skipIf c).rndDraws = s.rndDraws := by cases c <;> rfl
@[simp] theorem State.skipIf_diags (c : Bool) : (s.skipIf c).diags = s.diags := by cases c <;> rfl

@[simp] theorem State.endStep_v : s.endStep.v = s.v := by unfold State.endStep; split <;> rfl
@[simp] theorem State.endStep_i : s.endStep.i = s.i := by unfold State.endStep; split <;> rfl
@[simp] theorem State.endStep_pc : s.endStep.pc = s.pc := by unfold State.endStep; split <;> rfl
@[simp] theorem State.endStep_sp : s.endStep.sp = s.sp := by unfold State.endStep; split <;> rfl
@[simp] theorem State.endStep_stack : s.endStep.stack = s.stack := by unfold State.endStep; split <;> rfl
@[simp] theorem State.endStep_mem : s.endStep.mem = s.mem := by unfold State.endStep; split <;> rfl
@[simp] theorem State.endStep_display : s.endStep.display = s.display := by unfold State.endStep; split <;> rfl
@[simp] theorem State.endStep_keys : s.endStep.keys = s.keys := by unfold State.endStep; split <;> rfl
@[simp] theorem State.endStep_fault : s.endStep.fault = s.fault := by unfold State.endStep; split <;> rfl
@[simp] theorem State.endStep_faultPc : s.endStep.faultPc = s.faultPc := by unfold State.endStep; split <;> rfl
@[simp] theorem State.endStep_faultOp : s.endStep.faultOp = s.faultOp := by unfold State.endStep; split <;> rfl
@[simp] theorem State.endStep_config : s.endStep.config = s.config := by unfold State.endStep; split <;> rfl
@[simp] theorem State.endStep_rndQueue : s.endStep.rndQueue = s.rndQueue := by unfold State.endStep; split <;> rfl
@[simp] theorem State.endStep_rndDraws : s.endStep.rndDraws = s.rndDraws := by unfold State.endStep; split <;> rfl
@[simp] theorem State.endStep_diags : s.endStep.diags = s.diags := by unfold State.endStep; split <;> rfl

theorem State.endStep_faulted (h : s.fault ≠ .noFault) : s.endStep = s := by simp [State.endStep, h]

theorem State.endStep_perStep (h : s.fault = .noFault) (hc : s.config.timerSource = .perStep) :
    s.endStep = s.timerDecrement := by simp [State.endStep, h, hc]

theorem State.endStep_external (hc : s.config.timerSource = .external) : s.endStep = s := by
  simp [State.endStep, hc]

@[simp] theorem State.storeBytes_v (a : Nat) (bs : List Byte) : (s.storeBytes a bs).v = s.v := by
  induction bs generalizing s a with
  | nil => rfl
  | cons b bs ih => exact ih ..
@[simp] theorem State.storeBytes_i (a : Nat) (bs : List Byte) : (s.storeBytes a bs).i = s.i := by
  induction bs generalizing s a with
  | nil => rfl
  | cons b bs ih => exact ih ..
@[simp] theorem State.storeBytes_pc (a : Nat) (bs : List Byte) : (s.storeBytes a bs).pc = s.pc := by
  induction bs generalizing s a with
  | nil => rfl
  | cons b bs ih => exact ih ..
@[simp] theorem State.storeBytes_sp (a : Nat) (bs : List Byte) : (s.storeBytes a bs).sp = s.sp := by
  induction bs generalizing s a with
  | nil => rfl
  | cons b bs ih => exact ih ..
@[simp] theorem State.storeBytes_stack (a : Nat) (bs : List Byte) : (s.storeBytes a bs).stack = s.stack := by
  induction bs generalizing s a with
  | nil => rfl
  | cons b bs ih => exact ih ..
@[simp] theorem State.storeBytes_dt (a : Nat) (bs : List Byte) : (s.storeBytes a bs).dt = s.dt := by
  induction bs generalizing s a with
  | nil => rfl
  | cons b bs ih => exact ih ..
@[simp] theorem State.storeBytes_st (a : Nat) (bs : List Byte) : (s.storeBytes a bs).st = s.st := by
  induction bs generalizing s a with
  | nil => rfl
  | cons b bs ih => exact ih ..
@[simp] theorem State.storeBytes_display (a : Nat) (bs : List Byte) : (s.storeBytes a bs).display = s.display := by
  induction bs generalizing s a with
  | nil => rfl
  | cons b bs ih => exact ih ..
@[simp] theorem State.storeBytes_keys (a : Nat) (bs : List Byte) : (s.storeBytes a bs).keys = s.keys := by
  induction bs generalizing s a with
  | nil => rfl
  | cons b bs ih => exact ih ..
@[simp] theorem State.storeBytes_fault (a : Nat) (bs : List Byte) : (s.storeBytes a bs).fault = s.fault := by
  induction bs generalizing s a with
  | nil => rfl
  | cons b bs ih => exact ih ..
@[simp] theorem State.storeBytes_faultPc (a : Nat) (bs : List Byte) : (s.storeBytes a bs).faultPc = s.faultPc := by
  induction bs generalizing s a with
  | nil => rfl
  | cons b bs ih => exact ih ..
@[simp] theorem State.storeBytes_faultOp (a : Nat) (bs : List Byte) : (s.storeBytes a bs).faultOp = s.faultOp := by
  induction bs generalizing s a with
  | nil => rfl
  | cons b bs ih => exact ih ..
@[simp] theorem State.storeBytes_config (a : Nat) (bs : List Byte) : (s.storeBytes a bs).config = s.config := by
  induction bs generalizing s a with
  | nil => rfl
  | cons b bs ih => exact ih ..
@[simp] theorem State.storeBytes_rndQueue (a : Nat) (bs : List Byte) : (s.storeBytes a bs).rndQueue = s.rndQueue := by
  induction bs generalizing s a with
  | nil => rfl
  | cons b bs ih => exact ih ..
@[simp] theorem State.storeBytes_rndDraws (a : Nat) (bs : List Byte) : (s.storeBytes a bs).rndDraws = s.rndDraws := by
  induction bs generalizing s a with
  | nil => rfl
  | cons b bs ih => exact ih ..
@[simp] theorem State.storeBytes_diags (a : Nat) (bs : List Byte) : (s.storeBytes a bs).diags = s.diags := by
  induction bs generalizing s a with
  | nil => rfl
  | cons b bs ih => exact ih ..

@[simp] theorem State.flipPixels_v (h : Bool) (ps : List (Fin 64 × Fin 32)) : (s.flipPixels h ps).2.v = s.v := by
  induction ps generalizing s h with
  | nil => rfl
  | cons p ps ih => exact ih ..
@[simp] theorem State.flipPixels_i (h : Bool) (ps : List (Fin 64 × Fin 32)) : (s.flipPixels h ps).2.i = s.i := by
  induction ps generalizing s h with
  | nil => rfl
  | cons p ps ih => exact ih ..
@[simp] theorem State.flipPixels_pc (h : Bool) (ps : List (Fin 64 × Fin 32)) : (s.flipPixels h ps).2.pc = s.pc := by
  induction ps generalizing s h with
  | nil => rfl
  | cons p ps ih => exact ih ..
@[simp] theorem State.flipPixels_sp (h : Bool) (ps : List (Fin 64 × Fin 32)) : (s.flipPixels h ps).2.sp = s.sp := by
  induction ps generalizing s h with
  | nil => rfl
  | cons p ps ih => exact ih ..
@[simp] theorem State.flipPixels_stack (h : Bool) (ps : List (Fin 64 × Fin 32)) : (s.flipPixels h ps).2.stack = s.stack := by
  induction ps generalizing s h with
  | nil => rfl
  | cons p ps ih => exact ih ..
@[simp] theorem State.flipPixels_dt (h : Bool) (ps : List (Fin 64 × Fin 32)) : (s.flipPixels h ps).2.dt = s.dt := by
  induction ps generalizing s h with
  | nil => rfl
  | cons p ps ih => exact ih ..
@[simp] theorem State.flipPixels_st (h : Bool) (ps : List (Fin 64 × Fin 32)) : (s.flipPixels h ps).2.st = s.st := by
  induction ps generalizing s h with
  | nil => rfl
  | cons p ps ih => exact ih ..
@[simp] theorem State.flipPixels_mem (h : Bool) (ps : List (Fin 64 × Fin 32)) : (s.flipPixels h ps).2.mem = s.mem := by
  induction ps generalizing s h with
  | nil => rfl
  | cons p ps ih => exact ih ..
@[simp] theorem State.flipPixels_keys (h : Bool) (ps : List (Fin 64 × Fin 32)) : (s.flipPixels h ps).2.keys = s.keys := by
  induction ps generalizing s h with
  | nil => rfl
  | cons p ps ih => exact ih ..
@[simp] theorem State.flipPixels_fault (h : Bool) (ps : List (Fin 64 × Fin 32)) : (s.flipPixels h ps).2.fault = s.fault := by
  induction ps generalizing s h with
  | nil => rfl
  | cons p ps ih => exact ih ..
@[simp] theorem State.flipPixels_faultPc (h : Bool) (ps : List (Fin 64 × Fin 32)) : (s.flipPixels h ps).2.faultPc = s.faultPc := by
  induction ps generalizing s h with
  | nil => rfl
  | cons p ps ih => exact ih ..
@[simp] theorem State.flipPixels_faultOp (h : Bool) (ps : List (Fin 64 × Fin 32)) : (s.flipPixels h ps).2.faultOp = s.faultOp := by
  induction ps generalizing s h with
  | nil => rfl
  | cons p ps ih => exact ih ..
@[simp] theorem State.flipPixels_config (h : Bool) (ps : List (Fin 64 × Fin 32)) : (s.flipPixels h ps).2.config = s.config := by
  induction ps generalizing s h with
  | nil => rfl
  | cons p ps ih => exact ih ..
@[simp] theorem State.flipPixels_rndQueue (h : Bool) (ps : List (Fin 64 × Fin 32)) : (s.flipPixels h ps).2.rndQueue = s.rndQueue := by
  induction ps generalizing s h with
  | nil => rfl
  | cons p ps ih => exact ih ..
@[simp] theorem State.flipPixels_rndDraws (h : Bool) (ps : List (Fin 64 × Fin 32)) : (s.flipPixels h ps).2.rndDraws = s.rndDraws := by
  induction ps generalizing s h with
  | nil => rfl
  | cons p ps ih => exact ih ..
@[simp] theorem State.flipPixels_diags (h : Bool) (ps : List (Fin 64 × Fin 32)) : (s.flipPixels h ps).2.diags = s.diags := by
  induction ps generalizing s h with
  | nil => rfl
  | cons p ps ih => exact ih ..

/-! ## Registers -/

@[simp] theorem State.reg_setReg_self (x : RegIdx) (b : Byte) : (s.setReg x b).reg x = b := by
  simp [State.reg]

theorem State.reg_setReg (x z : RegIdx) (b : Byte) : (s.setReg x b).reg z = if z = x then b else s.reg z := by
  by_cases h : z = x
  · subst h; simp [State.reg]
  · have : x.val ≠ z.val := fun e => h (Fin.ext e.symm)
    simp [State.reg, h, this]

theorem State.reg_setFlagThenReg (g : Byte) (x z : RegIdx) (b : Byte) :
    (s.setFlagThenReg g x b).reg z = if z = x then b else if z = 15 then g else s.reg z := by
  simp [State.setFlagThenReg, State.reg_setReg]

theorem State.reg_loadRegs (a : Nat) (x z : RegIdx) :
    (s.loadRegs a x).reg z = if z ≤ x then s.memRead (a + z.val) else s.reg z := by
  simp [State.reg, State.loadRegs]

/-- `reg` reads nothing but the register file. -/
theorem State.reg_congr {s t : State} (h : t.v = s.v) (x : RegIdx) : t.reg x = s.reg x := by
  simp [State.reg, h]

/-! ## Pixels -/

theorem State.pixel_flipPixel (px qx : Fin 64) (py qy : Fin 32) :
    (s.flipPixel px py).pixel qx qy = (s.pixel qx qy ^^ decide (qx = px ∧ qy = py)) := by
  by_cases hy : qy = py
  · subst hy
    by_cases hq : qx = px
    · subst hq; simp [State.pixel, State.flipPixel]
    · have : qx.val ≠ px.val := fun e => hq (Fin.ext e)
      simp [State.pixel, State.flipPixel, hq, this]
  · have : py.val ≠ qy.val := fun e => hy (Fin.ext e.symm)
    simp [State.pixel, State.flipPixel, hy, this]

@[simp] theorem State.pixel_clearDisplay (px : Fin 64) (py : Fin 32) : s.clearDisplay.pixel px py = false := by
  simp [State.pixel]

/-- `pixel` reads nothing but the display. -/
theorem State.pixel_congr {s t : State} (h : t.display = s.display) (px : Fin 64) (py : Fin 32) :
    t.pixel px py = s.pixel px py := by simp [State.pixel, h]

/-! ## Reads that depend on memory and the font only -/

theorem State.memRead_congr {s t : State} (hm : t.mem = s.mem) (hc : t.config = s.config) (a : Nat) :
    t.memRead a = s.memRead a := by simp [State.memRead, hm, hc]

/-- Two reads at addresses equal mod 4096 are the same read (20_memory.md R51). -/
theorem State.memRead_mod (a : Nat) : s.memRead (a % 4096) = s.memRead a := by simp [State.memRead]

theorem State.fetchWord_congr {s t : State} (hm : t.mem = s.mem) (hc : t.config = s.config) (hp : t.pc = s.pc) :
    t.fetchWord = s.fetchWord := by
  simp [State.fetchWord, State.memRead_congr hm hc, hp]

/-- A word plus 2 minus 2 is the word: the handler's PC gives back p. -/
@[simp] theorem State.instrAddr_advance : s.advance.instrAddr = s.pc := by
  simp [State.instrAddr]

end Sys2Proof.Machine
end

