-- ==== Sys2Proof/Laws/Memory.lean ====
section
/-! SUPPORT. Memory: read after write, the canonical form is kept by every operation, and equal memories are
equal data. -/

namespace Sys2Proof.Machine

variable (font : Font)

/-! ## The list operations -/

theorem Memory.lookup_cell (k c : Nat) (v : Byte) (m : List Host.Cell) :
    ((k, v) :: m).lookup c = if c = k then some v else m.lookup c := by
  by_cases h : c = k
  · subst h; simp [List.lookup]
  · have : (c == k) = false := by simpa using h
    simp [List.lookup, this, h]

theorem Memory.lookup_erase (m : List Host.Cell) (a c : Nat) :
    (Memory.erase m a).lookup c = if c = a then none else m.lookup c := by
  induction m with
  | nil => simp [Memory.erase]
  | cons d m ih =>
    obtain ⟨k, v⟩ := d
    unfold Memory.erase at ih ⊢
    rw [List.filter_cons]
    by_cases hk : k = a
    · simp only [hk, bne_self_eq_false, Bool.false_eq_true, if_false, ih, Memory.lookup_cell]
      split <;> simp_all
    · simp only [bne_iff_ne, ne_eq, hk, not_false_eq_true, if_true, Memory.lookup_cell, ih]
      split <;> split <;> simp_all

theorem Memory.lookup_insert (m : List Host.Cell) (a c : Nat) (b : Byte) (h : ∀ d ∈ m, d.1 ≠ a) :
    (Memory.insert (a, b) m).lookup c = if c = a then some b else m.lookup c := by
  induction m with
  | nil => simp [Memory.insert, Memory.lookup_cell]
  | cons d m ih =>
    obtain ⟨k, v⟩ := d
    have hk : k ≠ a := h (k, v) (by simp)
    have ih := ih fun d hd => h d (by simp [hd])
    unfold Memory.insert
    split
    · simp [Memory.lookup_cell]
    · simp only [Memory.lookup_cell, ih]
      split <;> split <;> simp_all

theorem Memory.mem_erase (m : List Host.Cell) (a : Nat) (d : Host.Cell) :
    d ∈ Memory.erase m a ↔ d ∈ m ∧ d.1 ≠ a := by simp [Memory.erase]

theorem Memory.mem_insert (m : List Host.Cell) (c d : Host.Cell) :
    d ∈ Memory.insert c m ↔ d = c ∨ d ∈ m := by
  induction m with
  | nil => simp [Memory.insert]
  | cons e m ih =>
    unfold Memory.insert
    split
    · simp
    · simp only [List.mem_cons, ih]; tauto

/-! ## Read after write (20_memory.md R61) -/

/-- A read gives the byte last written there, and every other address reads as before; for every list, in
canonical form or not. -/
theorem Memory.read_write (m : List Host.Cell) (a c : Nat) (b : Byte) :
    Memory.read font (Memory.write font m a b) c = if c = a then b else Memory.read font m c := by
  unfold Memory.read Memory.write
  split
  · next hb => rw [Memory.lookup_erase]; split <;> simp_all
  · rw [Memory.lookup_insert _ _ _ _ (by simp [Memory.mem_erase]), Memory.lookup_erase]
    split <;> simp

theorem Memory.read_nil (a : Nat) : Memory.read font [] a = Memory.base font a := rfl

/-! ## The canonical form -/

theorem Memory.wf_nil : Memory.wf font [] := ⟨.nil, fun _ h => absurd h (by simp)⟩

theorem Memory.wf_erase {m : List Host.Cell} (a : Nat) (h : Memory.wf font m) :
    Memory.wf font (Memory.erase m a) :=
  ⟨h.1.filter _, fun c hc => h.2 c ((Memory.mem_erase m a c).1 hc).1⟩

theorem Memory.pairwise_insert {m : List Host.Cell} (c : Host.Cell)
    (h : m.Pairwise fun d e => d.1 < e.1) (hc : ∀ d ∈ m, d.1 ≠ c.1) :
    (Memory.insert c m).Pairwise fun d e => d.1 < e.1 := by
  induction m with
  | nil => simp [Memory.insert]
  | cons d m ih =>
    rw [List.pairwise_cons] at h
    unfold Memory.insert
    split
    · next hlt =>
      refine List.pairwise_cons.2 ⟨fun e he => ?_, List.pairwise_cons.2 h⟩
      rcases List.mem_cons.1 he with rfl | he
      · exact hlt
      · exact hlt.trans (h.1 e he)
    · next hlt =>
      refine List.pairwise_cons.2 ⟨fun e he => ?_, ih h.2 fun e he => hc e (by simp [he])⟩
      have hd := hc d (by simp)
      rcases (Memory.mem_insert m c e).1 he with rfl | he
      · omega
      · exact h.1 e he

/-- A write inside 0x000..0xFFF keeps the canonical form. -/
theorem Memory.wf_write {m : List Host.Cell} (a : Nat) (b : Byte) (ha : a < 4096) (h : Memory.wf font m) :
    Memory.wf font (Memory.write font m a b) := by
  have he := Memory.wf_erase font a h
  unfold Memory.write
  split
  · exact he
  · next hb =>
    refine ⟨Memory.pairwise_insert _ he.1 fun d hd => ((Memory.mem_erase m a d).1 hd).2, fun c hc => ?_⟩
    rcases (Memory.mem_insert _ _ c).1 hc with rfl | hc
    · exact ⟨ha, hb⟩
    · exact he.2 c hc

/-- In canonical form a cell is listed exactly when its byte is read there and differs from the reset
contents. -/
theorem Memory.mem_iff_read {m : List Host.Cell} (h : Memory.wf font m) (a : Nat) (b : Byte) :
    (a, b) ∈ m ↔ Memory.read font m a = b ∧ b ≠ Memory.base font a := by
  obtain ⟨hp, hb⟩ := h
  induction m with
  | nil => simp only [List.not_mem_nil, Memory.read_nil, false_iff, not_and]; exact fun e => by simp [e]
  | cons d m ih =>
    obtain ⟨k, v⟩ := d
    rw [List.pairwise_cons] at hp
    have ih := ih hp.2 fun c hc => hb c (by simp [hc])
    by_cases hk : a = k
    · subst hk
      have hv := (hb (a, v) (by simp)).2
      have hnot : ∀ b, (a, b) ∉ m := fun b hm => absurd (hp.1 _ hm) (by simp)
      simp only [List.mem_cons, Prod.mk.injEq, true_and, hnot, or_false, Memory.read, Memory.lookup_cell, if_true,
        Option.getD_some]
      exact ⟨fun e => ⟨e.symm, e ▸ hv⟩, fun e => e.1.symm⟩
    · have hread : Memory.read font ((k, v) :: m) a = Memory.read font m a := by
        simp [Memory.read, Memory.lookup_cell, hk]
      rw [hread, ← ih]
      simp [hk]

/-- Equal memories are equal data: two canonical lists that read alike everywhere are the same list. -/
theorem Memory.ext {m m' : List Host.Cell} (h : Memory.wf font m) (h' : Memory.wf font m')
    (hr : ∀ a, a < 4096 → Memory.read font m a = Memory.read font m' a) : m = m' := by
  have hmem : ∀ c, c ∈ m ↔ c ∈ m' := by
    rintro ⟨a, b⟩
    constructor
    · intro hc
      have := (Memory.mem_iff_read font h a b).1 hc
      exact (Memory.mem_iff_read font h' a b).2 ⟨hr a (h.2 _ hc).1 ▸ this.1, this.2⟩
    · intro hc
      have := (Memory.mem_iff_read font h' a b).1 hc
      exact (Memory.mem_iff_read font h a b).2 ⟨(hr a (h'.2 _ hc).1).symm ▸ this.1, this.2⟩
  have nodup : ∀ {l : List Host.Cell}, Memory.wf font l → l.Nodup := fun hl =>
    hl.1.imp fun hlt e => absurd hlt (by simp [e])
  refine ((List.perm_ext_iff_of_nodup (nodup h) (nodup h')).2 hmem).eq_of_pairwise
    (fun c d _ _ hcd hdc => absurd hcd (by omega)) h.1 h'.1

/-! ## Over the state -/

theorem State.memRead_memWrite (s : State) (a c : Nat) (b : Byte) :
    (s.memWrite a b).memRead c = if c % 4096 = a % 4096 then b else s.memRead c := by
  simp [State.memRead, Memory.read_write]

theorem State.wf_memWrite (s : State) (a : Nat) (b : Byte) (h : Memory.wf s.config.font s.mem) :
    Memory.wf (s.memWrite a b).config.font (s.memWrite a b).mem :=
  Memory.wf_write _ _ _ (Nat.mod_lt _ (by decide)) h

theorem State.wf_storeBytes (s : State) (a : Nat) (bs : List Byte) (h : Memory.wf s.config.font s.mem) :
    Memory.wf (s.storeBytes a bs).config.font (s.storeBytes a bs).mem := by
  induction bs generalizing s a with
  | nil => exact h
  | cons b bs ih => exact ih _ _ (s.wf_memWrite a b h)

/-- A byte outside the stored block reads as before. -/
theorem State.memRead_storeBytes_of_ne (s : State) (a c : Nat) (bs : List Byte)
    (h : ∀ k, k < bs.length → c % 4096 ≠ (a + k) % 4096) : (s.storeBytes a bs).memRead c = s.memRead c := by
  induction bs generalizing s a with
  | nil => rfl
  | cons b bs ih =>
    have h0 := h 0 (by simp)
    rw [State.storeBytes, ih _ _ fun k hk => ?_, State.memRead_memWrite, if_neg (by simpa using h0)]
    have := h (k + 1) (by simpa using hk)
    rwa [show a + 1 + k = a + (k + 1) by omega]

/-- Byte k of a stored block of at most 4096 bytes is read at its address. -/
theorem State.memRead_storeBytes (s : State) (a k : Nat) (bs : List Byte) (hl : bs.length ≤ 4096)
    (hk : k < bs.length) : (s.storeBytes a bs).memRead (a + k) = bs[k] := by
  induction bs generalizing s a k with
  | nil => simp at hk
  | cons b bs ih =>
    simp only [List.length_cons] at hl hk
    rw [State.storeBytes]
    cases k with
    | zero =>
      rw [State.memRead_storeBytes_of_ne _ _ _ _ fun k hk => by omega, State.memRead_memWrite]
      simp
    | succ k =>
      rw [show a + (k + 1) = a + 1 + k by omega, ih _ _ _ (by omega) (by omega)]
      rfl

end Sys2Proof.Machine
end

