-- ==== Sys2Proof/Laws/Frames.lean ====
section
/-! SUPPORT. The frame of every shared operation, once: which places it can change. Frames compose. -/

namespace Sys2Proof.Machine

variable {s t u : State} {ps qs : List Place}

/-! ## Composition -/

theorem OnlyChanges.refl (ps : List Place) (s : State) : OnlyChanges ps s s := ⟨⟨fun _ _ => rfl, rfl⟩, rfl, rfl, rfl⟩

theorem OnlyPlaces.mono (h : OnlyPlaces ps s t) (hs : ps ⊆ qs) : OnlyPlaces qs s t :=
  ⟨fun p hp => h.1 p fun hm => hp (hs hm), h.2⟩

theorem OnlyChanges.mono (h : OnlyChanges ps s t) (hs : ps ⊆ qs) : OnlyChanges qs s t := ⟨h.1.mono hs, h.2⟩

theorem OnlyPlaces.trans (h : OnlyPlaces ps s t) (h' : OnlyPlaces ps t u) : OnlyPlaces ps s u :=
  ⟨fun p hp => (h'.1 p hp).trans (h.1 p hp), h'.2.trans h.2⟩

theorem OnlyChanges.trans (h : OnlyChanges ps s t) (h' : OnlyChanges ps t u) : OnlyChanges ps s u :=
  ⟨h.1.trans h'.1, h'.2.1.trans h.2.1, h'.2.2.1.trans h.2.2.1, h'.2.2.2.trans h.2.2.2⟩

/-- Two transitions, one after the other, change at most what either changes. -/
theorem OnlyChanges.comp (h : OnlyChanges ps s t) (h' : OnlyChanges qs t u) : OnlyChanges (ps ++ qs) s u :=
  (h.mono (List.subset_append_left ps qs)).trans (h'.mono (List.subset_append_right ps qs))

/-! ## What a frame says of a field -/

theorem bool_of_toNat {a b : Bool} (h : a.toNat = b.toNat) : a = b := by cases a <;> cases b <;> simp_all

theorem OnlyChanges.reg_eq (h : OnlyChanges ps s t) (x : RegIdx) (hx : Place.reg x ∉ ps) : t.reg x = s.reg x :=
  BitVec.eq_of_toNat_eq (h.1.1 _ hx)

theorem OnlyChanges.pc_eq (h : OnlyChanges ps s t) (hx : Place.pc ∉ ps) : t.pc = s.pc :=
  BitVec.eq_of_toNat_eq (h.1.1 _ hx)

theorem OnlyChanges.index_eq (h : OnlyChanges ps s t) (hx : Place.index ∉ ps) : t.i = s.i :=
  BitVec.eq_of_toNat_eq (h.1.1 _ hx)

theorem OnlyChanges.sp_eq (h : OnlyChanges ps s t) (hx : Place.sp ∉ ps) : t.sp = s.sp := Fin.ext (h.1.1 _ hx)

theorem OnlyChanges.key_eq (h : OnlyChanges ps s t) (k : KeyIdx) (hx : Place.key k ∉ ps) : t.keys[k] = s.keys[k] :=
  bool_of_toNat (h.1.1 _ hx)

theorem OnlyChanges.pixel_eq (h : OnlyChanges ps s t) (px : Fin 64) (py : Fin 32) (hx : Place.pixel px py ∉ ps) :
    t.pixel px py = s.pixel px py := bool_of_toNat (h.1.1 _ hx)

theorem OnlyChanges.memRead_eq (h : OnlyChanges ps s t) (a : Nat) (hx : Place.byte (Fin.ofNat 4096 a) ∉ ps) :
    t.memRead a = s.memRead a := by
  have := BitVec.eq_of_toNat_eq (h.1.1 _ hx)
  simpa [State.memRead_mod] using this

theorem FaultCode.code_injective {a b : FaultCode} (h : a.code.toNat = b.code.toNat) : a = b := by
  cases a <;> cases b <;> first | rfl | exact absurd h (by decide)

theorem OnlyChanges.fault_eq (h : OnlyChanges ps s t) (hx : Place.faultCode ∉ ps) : t.fault = s.fault :=
  FaultCode.code_injective (h.1.1 _ hx)

theorem OnlyChanges.config_eq (h : OnlyChanges ps s t) : t.config = s.config := h.1.2

/-! ## The frame of each operation -/

/-- The one way a frame is shown of an operation: place by place. -/
theorem OnlyChanges.of_reads (h : ∀ p, p ∉ ps → t.debugRead p = s.debugRead p) (hc : t.config = s.config)
    (hd : t.diags = s.diags) (hq : t.rndQueue = s.rndQueue) (hn : t.rndDraws = s.rndDraws) : OnlyChanges ps s t :=
  ⟨⟨h, hc⟩, hd, hq, hn⟩

variable (s)

theorem setReg_frame (x : RegIdx) (b : Byte) : OnlyChanges [.reg x] s (s.setReg x b) := by
  refine .of_reads (fun p hp => ?_) rfl rfl rfl rfl
  cases p with
  | reg z => simp only [List.mem_singleton, Place.reg.injEq] at hp; simp [State.debugRead, State.reg_setReg, hp]
  | _ => rfl

theorem setFlagThenReg_frame (g : Byte) (x : RegIdx) (b : Byte) :
    OnlyChanges [.reg x, .reg 15] s (s.setFlagThenReg g x b) :=
  (OnlyChanges.comp (setReg_frame s 15 g) (setReg_frame (s.setReg 15 g) x b)).mono (by simp)

theorem setIndex_frame (w : Word) : OnlyChanges [.index] s (s.setIndex w) :=
  .of_reads (fun p hp => by cases p <;> first | rfl | simp at hp) rfl rfl rfl rfl

theorem setPc_frame (w : Word) : OnlyChanges [.pc] s (s.setPc w) :=
  .of_reads (fun p hp => by cases p <;> first | rfl | simp at hp) rfl rfl rfl rfl

theorem advance_frame : OnlyChanges [.pc] s s.advance := setPc_frame s _

theorem skipIf_frame (c : Bool) : OnlyChanges [.pc] s (s.skipIf c) := by
  cases c
  · exact .refl _ s
  · exact setPc_frame s _

theorem pop_frame : OnlyChanges [.sp] s s.pop :=
  .of_reads (fun p hp => by cases p <;> first | rfl | simp at hp) rfl rfl rfl rfl

theorem push_frame (j : Fin 16) (w : Word) (hj : s.sp.val = j.val) : OnlyChanges [.slot j, .sp] s (s.push w) := by
  refine .of_reads (fun p hp => ?_) rfl rfl rfl rfl
  cases p with
  | slot k =>
    have : j.val ≠ k.val := fun e => hp (by simp [Fin.ext e])
    simp [State.debugRead, State.push, hj, this]
  | sp => simp at hp
  | _ => rfl

theorem setDt_frame (b : Byte) : OnlyChanges [.delayTimer] s { s with dt := b } :=
  .of_reads (fun p hp => by cases p <;> first | rfl | simp at hp) rfl rfl rfl rfl

theorem setSt_frame (b : Byte) : OnlyChanges [.soundTimer] s { s with st := b } :=
  .of_reads (fun p hp => by cases p <;> first | rfl | simp at hp) rfl rfl rfl rfl

theorem timerDecrement_frame : OnlyChanges [.delayTimer, .soundTimer] s s.timerDecrement :=
  .of_reads (fun p hp => by cases p <;> first | rfl | simp at hp) rfl rfl rfl rfl

theorem endStep_frame : OnlyChanges [.delayTimer, .soundTimer] s s.endStep := by
  unfold State.endStep
  split
  · exact timerDecrement_frame s
  · exact .refl _ s

theorem raiseFault_entry (c : FaultCode) (w : Word) : FaultEntry c w s (s.raiseFault c w) :=
  ⟨rfl, rfl, rfl, rfl, .of_reads (fun p hp => by cases p <;> first | rfl | simp at hp) rfl rfl rfl rfl⟩

theorem setKey_frame (k : KeyIdx) (b : Bool) : OnlyChanges [.key k] s (s.setKey k b) := by
  refine .of_reads (fun p hp => ?_) rfl rfl rfl rfl
  cases p with
  | key j =>
    have : k.val ≠ j.val := fun e => hp (by simp [Fin.ext e])
    simp [State.debugRead, this]
  | _ => rfl

theorem memWrite_frame (a : Nat) (b : Byte) : OnlyChanges [.byte (Fin.ofNat 4096 a)] s (s.memWrite a b) := by
  refine .of_reads (fun p hp => ?_) rfl rfl rfl rfl
  cases p with
  | byte c =>
    have hc : c.val % 4096 ≠ a % 4096 := fun e =>
      hp (by simp [Fin.ext_iff]; rw [← e, Nat.mod_eq_of_lt c.isLt])
    simp [State.debugRead, State.memRead_memWrite, hc]
  | _ => rfl

theorem storeBytes_frame (a : Nat) (bs : List Byte) :
    OnlyChanges ((List.range bs.length).map fun k => .byte (Fin.ofNat 4096 (a + k))) s (s.storeBytes a bs) := by
  refine .of_reads (fun p hp => ?_) (by simp) (by simp) (by simp) (by simp)
  cases p with
  | byte c =>
    simp only [State.debugRead]
    rw [State.memRead_storeBytes_of_ne s a c.val bs fun k hk e => hp ?_]
    simp only [List.mem_map, List.mem_range]
    exact ⟨k, hk, by rw [Place.byte.injEq, Fin.ext_iff]; simp [← e, Nat.mod_eq_of_lt c.isLt]⟩
  | reg x => simp [State.debugRead, State.reg]
  | pixel x y => simp [State.debugRead, State.pixel]
  | _ => simp [State.debugRead]

theorem mem_regsTo (x z : RegIdx) : Place.reg z ∈ regsTo x ↔ z ≤ x := by
  simp only [regsTo, List.mem_map, List.mem_filter, List.mem_finRange, true_and, decide_eq_true_eq,
    Place.reg.injEq, exists_eq_right]

theorem loadRegs_frame (a : Nat) (x : RegIdx) : OnlyChanges (regsTo x) s (s.loadRegs a x) := by
  refine .of_reads (fun p hp => ?_) (by simp) (by simp) (by simp) (by simp)
  cases p with
  | reg z => rw [mem_regsTo] at hp; simp [State.debugRead, State.reg_loadRegs, hp]
  | byte c => simp only [State.debugRead, State.memRead, State.loadRegs_mem, State.loadRegs_config]
  | pixel px py => simp only [State.debugRead, State.pixel, State.loadRegs_display]
  | _ => simp [State.debugRead]

/-- Every pixel is in `allPixels`. -/
theorem mem_allPixels (px : Fin 64) (py : Fin 32) : Place.pixel px py ∈ allPixels :=
  List.mem_flatMap.2 ⟨py, List.mem_finRange _, List.mem_map.2 ⟨px, List.mem_finRange _, rfl⟩⟩

theorem display_frame (d : Vector (BitVec 64) 32) : OnlyChanges allPixels s { s with display := d } := by
  refine .of_reads (fun p hp => ?_) rfl rfl rfl rfl
  cases p with
  | pixel px py => exact absurd (mem_allPixels px py) hp
  | _ => rfl

/-- Places are all of the engine's state: two states with canonical memories that agree in every place, and in
the model's own fields, are equal. -/
theorem State.ext_of_places {s t : State} (h : OnlyChanges [] s t) (hs : Memory.wf s.config.font s.mem)
    (ht : Memory.wf t.config.font t.mem) : t = s := by
  have hp := fun p => h.1.1 p (by simp)
  have hreg : t.v = s.v := by
    ext1 k hk
    exact BitVec.eq_of_toNat_eq (hp (.reg ⟨k, hk⟩))
  have hstack : t.stack = s.stack := by
    ext1 k hk
    exact BitVec.eq_of_toNat_eq (hp (.slot ⟨k, hk⟩))
  have hkeys : t.keys = s.keys := by
    ext1 k hk
    exact bool_of_toNat (hp (.key ⟨k, hk⟩))
  have hdisplay : t.display = s.display := by
    ext1 y hy
    apply BitVec.eq_of_getLsbD_eq
    intro x hx
    exact bool_of_toNat (hp (.pixel ⟨x, hx⟩ ⟨y, hy⟩))
  have hmem : t.mem = s.mem := by
    refine Memory.ext s.config.font (h.config_eq ▸ ht) hs fun a ha => ?_
    have := BitVec.eq_of_toNat_eq (hp (.byte ⟨a, ha⟩))
    simpa [State.memRead, h.config_eq, Nat.mod_eq_of_lt ha] using this
  obtain ⟨⟨-, hc⟩, hd, hq, hn⟩ := h
  have e1 := BitVec.eq_of_toNat_eq (hp .index)
  have e2 := BitVec.eq_of_toNat_eq (hp .pc)
  have e3 := Fin.ext (hp .sp)
  have e4 := BitVec.eq_of_toNat_eq (hp .delayTimer)
  have e5 := BitVec.eq_of_toNat_eq (hp .soundTimer)
  have e6 := FaultCode.code_injective (hp .faultCode)
  have e7 := BitVec.eq_of_toNat_eq (hp .faultPc)
  have e8 := BitVec.eq_of_toNat_eq (hp .faultOp)
  cases s; cases t
  simp_all

end Sys2Proof.Machine
end

