-- ==== Sys2Proof/Laws/Sprite.lean ====
section
/-! SUPPORT. The sprite of DRW: its set bits, the pixels they land on, and what flipping a list of pixels does. -/

namespace Sys2Proof.Machine

variable (s : State)

/-! ## Set bits -/

theorem State.mem_spriteBits (n r c : Nat) :
    (r, c) ∈ s.spriteBits n ↔ r < n ∧ c < 8 ∧ s.spriteBit r c = true := by
  simp only [State.spriteBits, List.mem_flatMap, List.mem_range, List.mem_map, List.mem_filter, Prod.mk.injEq]
  constructor
  · rintro ⟨r', hr, c', ⟨hc, hb⟩, rfl, rfl⟩; exact ⟨hr, hc, hb⟩
  · rintro ⟨hr, hc, hb⟩; exact ⟨r, hr, c, ⟨hc, hb⟩, rfl, rfl⟩

/-- Each set bit is listed once. -/
theorem State.nodup_spriteBits (n : Nat) : (s.spriteBits n).Nodup := by
  refine List.nodup_flatMap.2 ⟨fun r _ => ?_, ?_⟩
  · exact (List.nodup_range.filter _).map fun a b e => (Prod.mk.inj e).2
  · refine List.nodup_range.imp fun {a b} hab x hx hy => ?_
    simp only [List.mem_map] at hx hy
    obtain ⟨_, _, rfl⟩ := hx
    obtain ⟨_, _, e⟩ := hy
    exact hab (Prod.mk.inj e).1.symm

/-! ## Where a set bit lands (45_display.md R214) -/

theorem place_eq_some (e : DrwEdge) (X Y : Nat) (px : Fin 64) (py : Fin 32) :
    place e X Y = some (px, py) ↔
      (px.val = X ∧ py.val = Y) ∨ (e = .wrap ∧ px.val = X % 64 ∧ py.val = Y % 32) := by
  have hx := px.isLt
  have hy := py.isLt
  unfold place onScreen
  by_cases h : X < 64 ∧ Y < 32
  · simp only [h, decide_true, Bool.and_self, if_true, Option.some.injEq, Prod.mk.injEq, Fin.ext_iff, Fin.val_ofNat,
      Nat.mod_eq_of_lt h.1, Nat.mod_eq_of_lt h.2]
    constructor
    · rintro ⟨a, b⟩; exact .inl ⟨a.symm, b.symm⟩
    · rintro (⟨a, b⟩ | ⟨-, a, b⟩) <;> exact ⟨a.symm, b.symm⟩
  · have hno : (decide (X < 64) && decide (Y < 32)) = false := by
      rw [← Bool.decide_and]; exact decide_eq_false h
    rw [hno]
    cases e
    · simp; omega
    · simp only [Bool.false_eq_true, if_false, Option.some.injEq, Prod.mk.injEq, Fin.ext_iff, Fin.val_ofNat, true_and]
      constructor
      · rintro ⟨a, b⟩; exact .inr ⟨a.symm, b.symm⟩
      · rintro (⟨a, b⟩ | ⟨a, b⟩) <;> omega
    · simp; omega

/-- A pixel is flipped exactly when some set bit lands on it. -/
theorem State.mem_spritePixels (x y : RegIdx) (n : Nat) (px : Fin 64) (py : Fin 32) :
    (px, py) ∈ s.spritePixels x y n ↔ ∃ r c, (r < n ∧ c < 8 ∧ s.spriteBit r c = true) ∧
      ((px.val = (s.corner x y).1 + c ∧ py.val = (s.corner x y).2 + r) ∨
        (s.config.drwEdge = .wrap ∧ px.val = ((s.corner x y).1 + c) % 64 ∧
          py.val = ((s.corner x y).2 + r) % 32)) := by
  simp only [State.spritePixels, List.mem_filterMap, Prod.exists, State.mem_spriteBits, place_eq_some]

/-- "no pixel is reached twice in one DRW, because the sprite is 8 ≤ 64 wide and at most 15 ≤ 32 high"
(45_display.md R212). -/
theorem State.nodup_spritePixels (x y : RegIdx) (n : Nat) (hn : n ≤ 32) : (s.spritePixels x y n).Nodup := by
  refine List.pairwise_filterMap.2 ((s.nodup_spriteBits n).imp_of_mem fun {p q} hp hq hpq a ha b hb hab => hpq ?_)
  obtain ⟨r, c⟩ := p
  obtain ⟨r', c'⟩ := q
  obtain ⟨hr, hc, -⟩ := (s.mem_spriteBits n r c).1 hp
  obtain ⟨hr', hc', -⟩ := (s.mem_spriteBits n r' c').1 hq
  subst hab
  obtain ⟨px, py⟩ := a
  have h1 := (place_eq_some _ _ _ px py).1 ha
  have h2 := (place_eq_some _ _ _ px py).1 hb
  have hx : (s.corner x y).1 < 64 := Nat.mod_lt _ (by decide)
  have hy : (s.corner x y).2 < 32 := Nat.mod_lt _ (by decide)
  have hpx := px.isLt
  have hpy := py.isLt
  rw [Prod.mk.injEq]
  omega

/-- Some set bit is off-screen. -/
theorem State.spriteOffScreen_iff (x y : RegIdx) (n : Nat) :
    s.spriteOffScreen x y n = true ↔ ∃ r c, (r < n ∧ c < 8 ∧ s.spriteBit r c = true) ∧
      ((s.corner x y).1 + c > 63 ∨ (s.corner x y).2 + r > 31) := by
  simp only [State.spriteOffScreen, List.any_eq_true, Prod.exists, State.mem_spriteBits, onScreen,
    Bool.not_eq_true', Bool.and_eq_false_iff, decide_eq_false_iff_not, Nat.not_lt]
  refine exists_congr fun r => exists_congr fun c => and_congr_right fun _ => ?_
  omega

/-! ## Flipping -/

/-- Flipping a list without repeats exclusive-ors exactly its pixels. -/
theorem State.pixel_flipPixels (h : Bool) (ps : List (Fin 64 × Fin 32)) (hn : ps.Nodup) (px : Fin 64)
    (py : Fin 32) :
    (s.flipPixels h ps).2.pixel px py = (s.pixel px py ^^ decide ((px, py) ∈ ps)) := by
  induction ps generalizing s h with
  | nil => simp [State.flipPixels]
  | cons p ps ih =>
    obtain ⟨qx, qy⟩ := p
    rw [List.nodup_cons] at hn
    rw [State.flipPixels, ih _ _ hn.2, State.pixel_flipPixel]
    by_cases e : px = qx ∧ py = qy
    · obtain ⟨rfl, rfl⟩ := e; simp [hn.1]
    · have : (px, py) ≠ (qx, qy) := fun h => e (Prod.mk.inj h)
      simp [e]

/-- The collision is that some flipped pixel was lit. -/
theorem State.hit_flipPixels (h : Bool) (ps : List (Fin 64 × Fin 32)) (hn : ps.Nodup) :
    (s.flipPixels h ps).1 = (h || ps.any fun p => s.pixel p.1 p.2) := by
  induction ps generalizing s h with
  | nil => simp [State.flipPixels]
  | cons p ps ih =>
    rw [List.nodup_cons] at hn
    rw [State.flipPixels, ih _ _ hn.2, List.any_cons, Bool.or_assoc]
    have same : ∀ q ∈ ps, (s.flipPixel p.1 p.2).pixel q.1 q.2 = s.pixel q.1 q.2 := fun q hq => by
      have : ¬(q.1 = p.1 ∧ q.2 = p.2) := fun e => hn.1 (by rwa [← Prod.ext e.1 e.2])
      simp [State.pixel_flipPixel, this]
    rw [show (ps.any fun q => (s.flipPixel p.1 p.2).pixel q.1 q.2) = ps.any fun q => s.pixel q.1 q.2 from
      Bool.eq_iff_iff.2 (by
        simp only [List.any_eq_true]
        exact exists_congr fun q => and_congr_right fun hq => by rw [same q hq])]

/-- Flipping changes nothing but the display. -/
theorem State.flipPixels_eq (h : Bool) (ps : List (Fin 64 × Fin 32)) :
    (s.flipPixels h ps).2 = { s with display := (s.flipPixels h ps).2.display } := by
  induction ps generalizing s h with
  | nil => rfl
  | cons p ps ih => rw [State.flipPixels, ih]; rfl

theorem flipPixels_frame (h : Bool) (ps : List (Fin 64 × Fin 32)) : OnlyChanges allPixels s (s.flipPixels h ps).2 := by
  rw [State.flipPixels_eq]; exact display_frame s _

/-! ## What the sprite depends on -/

theorem State.spriteBit_congr {s t : State} (hm : t.mem = s.mem) (hc : t.config = s.config) (hi : t.i = s.i) (r c : Nat) :
    t.spriteBit r c = s.spriteBit r c := by
  simp [State.spriteBit, State.indexed, hi, State.memRead_congr hm hc]

theorem State.spriteBits_congr {s t : State} (hm : t.mem = s.mem) (hc : t.config = s.config) (hi : t.i = s.i) (n : Nat) :
    t.spriteBits n = s.spriteBits n := by
  have : t.spriteBit = s.spriteBit := funext fun r => funext fun c => State.spriteBit_congr hm hc hi r c
  simp [State.spriteBits, this]

theorem State.corner_congr {s t : State} {x y : RegIdx} (hx : t.reg x = s.reg x) (hy : t.reg y = s.reg y) :
    t.corner x y = s.corner x y := by simp [State.corner, hx, hy]

theorem State.spriteOffScreen_congr {s t : State} {x y : RegIdx} (hm : t.mem = s.mem) (hc : t.config = s.config)
    (hi : t.i = s.i) (hx : t.reg x = s.reg x) (hy : t.reg y = s.reg y) (n : Nat) :
    t.spriteOffScreen x y n = s.spriteOffScreen x y n := by
  simp [State.spriteOffScreen, State.spriteBits_congr hm hc hi, State.corner_congr hx hy]

theorem State.spritePixels_congr {s t : State} {x y : RegIdx} (hm : t.mem = s.mem) (hc : t.config = s.config)
    (hi : t.i = s.i) (hx : t.reg x = s.reg x) (hy : t.reg y = s.reg y) (n : Nat) :
    t.spritePixels x y n = s.spritePixels x y n := by
  simp [State.spritePixels, State.spriteBits_congr hm hc hi, State.corner_congr hx hy, hc]

end Sys2Proof.Machine
end

