-- ==== Sys2Proof/Laws/Exec.lean ====
section
/-! SUPPORT. What each instruction can do, said once: the places it can change, and that it answers a next
state. Whole-machine rules follow from this one lemma. -/

namespace Sys2Proof.Machine

/-- The places fault entry writes (60_exceptions.md R238). -/
def faultPlaces : List Place := [.pc, .faultCode, .faultPc, .faultOp]

/-- The places an instruction can change from a state, whether it completes or raises a fault. -/
def writes (i : Instr) (s : State) : List Place :=
  match i with
  | .cls => allPixels
  | .ret => .sp :: faultPlaces
  | .sysAddr _ => []
  | .jpAddr _ | .jpV0Addr _ | .seVxKk _ _ | .sneVxKk _ _ | .seVxVy _ _ | .sneVxVy _ _ => [.pc]
  | .callAddr _ => if s.sp = 16 then faultPlaces else [.slot (Fin.ofNat 16 s.sp.val), .sp, .pc]
  | .ldVxKk x _ | .addVxKk x _ | .ldVxVy x _ | .orVxVy x _ | .andVxVy x _ | .xorVxVy x _ => [.reg x]
  | .rndVxKk x _ | .ldVxDt x => [.reg x]
  | .addVxVy x _ | .subVxVy x _ | .shrVx x _ | .subnVxVy x _ | .shlVx x _ => [.reg x, .reg 15]
  | .ldIAddr _ | .addIVx _ | .ldFVx _ => [.index]
  | .drwVxVyN _ _ _ => .reg 15 :: (allPixels ++ faultPlaces)
  | .skpVx _ | .sknpVx _ => faultPlaces
  | .ldVxK x => [.reg x, .pc]
  | .ldDtVx _ => [.delayTimer]
  | .ldStVx _ => [.soundTimer]
  | .ldBVx _ => s.block 3
  | .ldMemVx x => s.block (x.val + 1)
  | .ldVxMem x => regsTo x

variable (s : State)

theorem regsUpTo_length (x : RegIdx) : (s.regsUpTo x).length = x.val + 1 := by
  have := x.isLt
  simp only [State.regsUpTo, List.length_take, Vector.length_toList]; omega

theorem regsUpTo_get (x k : RegIdx) (h : k.val < (s.regsUpTo x).length) : (s.regsUpTo x)[k.val] = s.reg k := by
  simp [State.regsUpTo, State.reg]

theorem block_eq (n : Nat) :
    s.block n = (List.range n).map fun k => Place.byte (Fin.ofNat 4096 (s.indexed 0 + k)) := by
  simp [State.block, State.indexed]

theorem storeAtIndex_frame (bs : List Byte) : OnlyChanges (s.block bs.length) s (s.storeBytes (s.indexed 0) bs) := by
  rw [block_eq]; exact storeBytes_frame s _ bs

theorem raiseFault_frame (c : FaultCode) (w : Word) : OnlyChanges faultPlaces s (s.raiseFault c w) :=
  (raiseFault_entry s c w).2.2.2.2

/-- One lemma for every instruction but RND: it answers a next state that differs in `writes` only. -/
theorem exec_changes (i : Instr) (hi : ∀ x kk, i ≠ .rndVxKk x kk) :
    ∃ t, exec i s = .next t ∧ OnlyChanges (writes i s) s t := by
  cases i with
  | cls => exact ⟨_, rfl, display_frame s _⟩
  | ret =>
    by_cases h : s.sp = 0
    · exact ⟨_, if_pos h, (raiseFault_frame s _ _).mono (List.subset_cons_self _ _)⟩
    · exact ⟨_, if_neg h, ((pop_frame s).comp (setPc_frame s.pop _)).mono (by simp [writes, faultPlaces])⟩
  | sysAddr nnn => exact ⟨_, rfl, .refl _ s⟩
  | jpAddr nnn | jpV0Addr nnn => exact ⟨_, rfl, setPc_frame s _⟩
  | seVxKk x kk | sneVxKk x kk | seVxVy x y | sneVxVy x y => exact ⟨_, rfl, skipIf_frame s _⟩
  | callAddr nnn =>
    by_cases h : s.sp = 16
    · exact ⟨_, if_pos h, (raiseFault_frame s _ _).mono (by simp [writes, h])⟩
    · have hlt : s.sp.val < 16 := by
        have := s.sp.isLt
        have : s.sp.val ≠ 16 := fun e => h (Fin.ext e)
        omega
      refine ⟨_, if_neg h, ((push_frame s (Fin.ofNat 16 s.sp.val) s.pc ?_).comp (setPc_frame _ _)).mono ?_⟩
      · exact (Nat.mod_eq_of_lt hlt).symm
      · simp [writes, h]
  | ldVxKk x kk | addVxKk x kk | ldVxVy x y | orVxVy x y | andVxVy x y | xorVxVy x y | ldVxDt x =>
    exact ⟨_, rfl, setReg_frame s x _⟩
  | addVxVy x y | subVxVy x y | shrVx x y | subnVxVy x y | shlVx x y => exact ⟨_, rfl, setFlagThenReg_frame s _ x _⟩
  | ldIAddr nnn | addIVx x | ldFVx x => exact ⟨_, rfl, setIndex_frame s _⟩
  | rndVxKk x kk => exact absurd rfl (hi x kk)
  | drwVxVyN x y n =>
    by_cases h : s.config.drwEdge = .fault ∧ s.spriteOffScreen x y n.val = true
    · exact ⟨_, if_pos h, (raiseFault_frame s _ _).mono fun p hp => by simp [writes, hp]⟩
    · refine ⟨_, if_neg h, ((flipPixels_frame s false _).comp (setReg_frame _ 15 _)).mono fun p hp => ?_⟩
      rcases List.mem_append.1 hp with hp | hp
      · exact List.mem_cons_of_mem _ (List.mem_append_left _ hp)
      · rw [List.mem_singleton.1 hp]; exact List.mem_cons_self
  | skpVx x | sknpVx x =>
    simp only [exec, execSkpVx, execSknpVx]
    split
    · exact ⟨_, rfl, raiseFault_frame s _ _⟩
    · exact ⟨_, rfl, (skipIf_frame s _).mono (by simp [writes, faultPlaces])⟩
  | ldVxK x =>
    simp only [exec, execLdVxK]
    split
    · exact ⟨_, rfl, (setReg_frame s x _).mono (by simp [writes])⟩
    · exact ⟨_, rfl, (setPc_frame s _).mono (by simp [writes])⟩
  | ldDtVx x => exact ⟨_, rfl, setDt_frame s _⟩
  | ldStVx x => exact ⟨_, rfl, setSt_frame s _⟩
  | ldBVx x => exact ⟨_, rfl, storeAtIndex_frame s (bcdDigits (s.reg x))⟩
  | ldMemVx x =>
    refine ⟨_, rfl, ?_⟩
    have := storeAtIndex_frame s (s.regsUpTo x)
    rwa [regsUpTo_length] at this
  | ldVxMem x => exact ⟨_, rfl, loadRegs_frame s _ x⟩

/-- RND changes V[x], and takes one random byte. -/
theorem exec_rnd (x : RegIdx) (kk : Byte) :
    exec (.rndVxKk x kk) s = .next (s.rndTaken.setReg x (s.rnd &&& kk)) ∧
      OnlyPlaces [.reg x] s (s.rndTaken.setReg x (s.rnd &&& kk)) := by
  refine ⟨rfl, OnlyPlaces.trans (t := s.rndTaken) ⟨fun p _ => ?_, rfl⟩ (setReg_frame s.rndTaken x _).1⟩
  cases p <;> rfl

/-- Every instruction answers a next state that differs in `writes` only, RND among them. -/
theorem exec_places (i : Instr) : ∃ t, exec i s = .next t ∧ OnlyPlaces (writes i s) s t ∧ t.diags = s.diags := by
  by_cases h : ∃ x kk, i = .rndVxKk x kk
  · obtain ⟨x, kk, rfl⟩ := h
    exact ⟨_, (exec_rnd s x kk).1, (exec_rnd s x kk).2, rfl⟩
  · obtain ⟨t, ht, hc⟩ := exec_changes s i fun x kk e => h ⟨x, kk, e⟩
    exact ⟨t, ht, hc.1, hc.2.1⟩

end Sys2Proof.Machine
end

