-- ==== Sys2Proof/Laws/Run.lean ====
section
/-! SUPPORT. Runs of steps: unfolding one step, splitting a run, and the induction over a run, once. -/

namespace Sys2Proof.Machine

/-! ## For every machine of the interface -/

theorem run_succ_of (M : Host.Core) (k : Nat) {s t : M.State} (h : M.step s = .next t) :
    M.run (k + 1) s = M.run k t := by
  simp only [Host.Core.run, h]

theorem run_succ_inv_of (M : Host.Core) (k : Nat) {s t : M.State} (h : M.run (k + 1) s = .next t) :
    ∃ u, M.step s = .next u ∧ M.run k u = .next t := by
  simp only [Host.Core.run] at h
  cases hs : M.step s with
  | next u => rw [hs] at h; exact ⟨u, rfl, h⟩
  | fault r => rw [hs] at h; cases h
  | refused r => rw [hs] at h; cases h

theorem run_add_of (M : Host.Core) (j k : Nat) {s t : M.State} (h : M.run j s = .next t) :
    M.run (j + k) s = M.run k t := by
  induction j generalizing s with
  | zero => cases h; rw [Nat.zero_add]
  | succ j ih =>
    obtain ⟨u, hs, hu⟩ := run_succ_inv_of M j h
    rw [Nat.succ_add, run_succ_of M (j + k) hs]; exact ih hu

/-! ## For the engine -/

variable {s t : State}

theorem run_zero (s : State) : Host.Core.run Sys2Proof.core 0 s = .next s := rfl

theorem run_succ (k : Nat) (h : step s = .next t) :
    Host.Core.run Sys2Proof.core (k + 1) s = Host.Core.run Sys2Proof.core k t :=
  run_succ_of Sys2Proof.core k h

theorem run_succ_inv (k : Nat) (h : Host.Core.run Sys2Proof.core (k + 1) s = .next t) :
    ∃ u, step s = .next u ∧ Host.Core.run Sys2Proof.core k u = .next t :=
  run_succ_inv_of Sys2Proof.core k h

/-- A run of j + k steps whose first j steps answer `t` goes on from `t`. -/
theorem run_add (j k : Nat) (h : Host.Core.run Sys2Proof.core j s = .next t) :
    Host.Core.run Sys2Proof.core (j + k) s = Host.Core.run Sys2Proof.core k t :=
  run_add_of Sys2Proof.core j k h

/-- What holds of a state and is kept by every step from states that have it holds after any run, and the run
answers a next state when every such step does. -/
theorem run_induction (P : State → Prop) (hP : ∀ s, P s → ∃ t, step s = .next t ∧ P t) (k : Nat) (h : P s) :
    ∃ t, Host.Core.run Sys2Proof.core k s = .next t ∧ P t := by
  induction k generalizing s with
  | zero => exact ⟨s, rfl, h⟩
  | succ k ih =>
    obtain ⟨t, ht, hp⟩ := hP s h
    obtain ⟨u, hu, hq⟩ := ih hp
    exact ⟨u, (run_succ k ht).trans hu, hq⟩

end Sys2Proof.Machine
end

