-- ==== Sys2Proof/Laws/Step.lean ====
section
/-! SUPPORT. What a step can do, said once, and the small facts about the operations a step calls: the timers,
the key index, the key scan, and the memory form. Provers cite these and never unfold `step`. -/

namespace Sys2Proof.Machine

variable {s t : State} {i : Instr}

/-- A step of a faulted engine changes nothing; any other step is a handler's state, or the unknown-opcode state,
with the end of the step (spec/40_engine_cycle.md R107). -/
theorem step_cases (h : step s = .next t) :
    (s.fault ≠ .noFault ∧ t = s) ∨
    (s.fault = .noFault ∧ ∃ u, t = u.endStep ∧
      ((decode s.fetchWord = none ∧ u = unknownOpcode s.fetchWord s.advance) ∨
        ∃ i, decode s.fetchWord = some i ∧ exec i s.advance = .next u)) := by
  by_cases hf : s.fault = .noFault
  · simp only [step, hf, if_true, runCycle] at h
    cases hd : decode s.fetchWord with
    | none => rw [hd] at h; cases h; exact .inr ⟨hf, _, rfl, .inl ⟨rfl, rfl⟩⟩
    | some i =>
      obtain ⟨u, hu, -⟩ := exec_places s.advance i
      simp only [hd, hu, finishStep] at h
      cases h; exact .inr ⟨hf, u, rfl, .inr ⟨i, rfl, hu⟩⟩
  · simp only [step, hf, if_false] at h
    cases h; exact .inl ⟨hf, rfl⟩

/-- What an instruction can change when it answers `t`. -/
theorem exec_onlyPlaces (h : exec i s = .next t) : OnlyPlaces (writes i s) s t := by
  obtain ⟨u, hu, hc, -⟩ := exec_places s i
  rw [h] at hu; cases hu; exact hc

theorem exec_config (h : exec i s = .next t) : t.config = s.config := (exec_onlyPlaces h).2

theorem unknownOpcode_config (w : Word) (s : State) : (unknownOpcode w s).config = s.config := by
  unfold unknownOpcode; split <;> rfl

/-- A timer lowered by 1 while above zero, as a natural (44_keypad_timers.md R197). -/
theorem timerDown_toNat (b : Byte) : (timerDown b).toNat = b.toNat - 1 := by
  unfold timerDown
  split
  · next h => subst h; rfl
  · next h =>
    have := b.isLt
    have : b.toNat ≠ 0 := fun e => h (BitVec.eq_of_toNat_eq e)
    rw [BitVec.toNat_sub]; simp; omega

theorem keyIndex_none (o : KeyOor) (b : Byte) : keyIndex o b = none ↔ o = .fault ∧ 15 < b.toNat := by
  unfold keyIndex
  split
  · simp; omega
  · cases o <;> simp; omega

theorem firstPressed_none (s : State) : s.firstPressed = none ↔ ∀ k : KeyIdx, s.keys[k] = false := by
  simp [State.firstPressed, List.find?_eq_none]

/-- What decides whether an instruction faults: V0..VF, SP, I, memory and the parameters. -/
theorem faultOf_congr (i : Instr) (hv : t.v = s.v) (hsp : t.sp = s.sp) (hm : t.mem = s.mem)
    (hc : t.config = s.config) (hi : t.i = s.i) : faultOf i t = faultOf i s := by
  have hr : ∀ x, t.reg x = s.reg x := fun x => by simp [State.reg, hv]
  cases i with
  | drwVxVyN x y n => simp only [faultOf, State.spriteOffScreen_congr hm hc hi (hr x) (hr y), hc]
  | _ => simp only [faultOf, hr, hc, hsp]

/-- Every instruction keeps memory in its canonical form. -/
theorem exec_wf (h : exec i s = .next t) (hw : Memory.wf s.config.font s.mem) : Memory.wf t.config.font t.mem := by
  cases i with
  | ret => simp only [exec, execRet] at h; split at h <;> cases h <;> exact hw
  | callAddr => simp only [exec, execCallAddr] at h; split at h <;> cases h <;> exact hw
  | seVxKk | sneVxKk | seVxVy | sneVxVy => cases h; simpa using hw
  | skpVx | sknpVx =>
    simp only [exec, execSkpVx, execSknpVx] at h
    split at h <;> cases h <;> simpa using hw
  | ldVxK => simp only [exec, execLdVxK] at h; split at h <;> cases h <;> exact hw
  | drwVxVyN =>
    simp only [exec, execDrwVxVyN] at h
    split at h <;> cases h
    · exact hw
    · simpa using hw
  | ldBVx | ldMemVx => cases h; exact State.wf_storeBytes _ _ _ hw
  | _ => cases h; exact hw

/-- The two bytes of the fetched word are the bytes at PC and PC + 1 (20_memory.md R53). -/
theorem fetchWord_bytes (s : State) :
    s.fetchWord.toNat / 256 = (s.memRead s.pc.toNat).toNat ∧
    s.fetchWord.toNat % 256 = (s.memRead (s.pc.toNat + 1)).toNat := by
  have h1 := (s.memRead s.pc.toNat).isLt
  have h2 := (s.memRead (s.pc.toNat + 1)).isLt
  rw [State.fetchWord, toNat_wordOfBytes]
  omega

/-- The word placed at PC is the word the next step fetches. -/
theorem fetchWord_placeAtPc (s : State) (hi lo : Byte) :
    (s.placeAtPc [hi, lo]).fetchWord = wordOfBytes hi lo ∧ (s.placeAtPc [hi, lo]).fault = .noFault := by
  have hpc : (s.placeAtPc [hi, lo]).pc = s.pc := by simp [State.placeAtPc, State.clearFault]
  refine ⟨?_, by simp [State.placeAtPc, State.clearFault]⟩
  have h0 := State.memRead_storeBytes s.clearFault s.pc.toNat 0 [hi, lo] (by simp) (by simp)
  have h1 := State.memRead_storeBytes s.clearFault s.pc.toNat 1 [hi, lo] (by simp) (by simp)
  rw [State.fetchWord, hpc]
  exact congrArg₂ wordOfBytes h0 h1

end Sys2Proof.Machine
end

