-- ==== Sys2Proof/Tests/Slice0.lean ====
section
/-! SUPPORT. Tests of the model on small states. Every expected result is the spec's: the vector named in a
test's comment is one of spec/95_test_vectors.md, and the words are written out from spec/30_encoding.md R74.
After them, for every obligation with hypotheses, a state and operands that meet them. -/

namespace Sys2Proof.Tests

open Sys2Proof.Machine

/-! ## Small states -/

/-- The reset state with PC = p and the word `w` stored there. -/
def bootAt (p : Word) (w : Nat) : State := ({ State.reset with pc := p } : State).withFetchWord 16 w

/-- The reset state with the word `w` stored at 0x200. -/
def boot (w : Nat) : State := bootAt 0x200 w

/-- The reset state with other parameters and the word `w` stored at 0x200. -/
def bootWith (c : Config) (w : Nat) : State := ({ State.reset with config := c } : State).withFetchWord 16 w

/-- The state an outcome answers; the reset state where it answers none. -/
def after (o : Host.Outcome State Fault Refusal) : State :=
  match o with
  | .next t    => t
  | .fault _   => State.reset
  | .refused _ => State.reset

/-- The state after one step. -/
def stepped (s : State) : State := after (step s)

/-- Memory bytes stored from an address on. -/
def bytesAt (s : State) (a : Nat) (bs : List Byte) : State := s.storeBytes a bs

def wrapEdge : Config := { defaultConfig with drwEdge := .wrap }
def faultEdge : Config := { defaultConfig with drwEdge := .fault }
def externalTimers : Config := { defaultConfig with timerSource := .external }
def lowNibbleKeys : Config := { defaultConfig with keyOor := .lowNibble }
def strict : Config := { defaultConfig with strictDecode := true }

/-! ## Well-formedness: SYS 0x0E0 and SYS 0x0EE are no instructions (30_encoding.md R75) -/

theorem test_wf_sys_0E0_refused : (Instr.sysAddr 0x0E0).wellFormed = false := by decide
theorem test_wf_sys_0EE_refused : (Instr.sysAddr 0x0EE).wellFormed = false := by decide
theorem test_wf_sys_neighbours_accepted :
    (Instr.sysAddr 0x0E1).wellFormed = true ∧ (Instr.sysAddr 0x0EF).wellFormed = true ∧
    (Instr.sysAddr 0x000).wellFormed = true ∧ (Instr.sysAddr 0xFFF).wellFormed = true := by decide

/-! ## Decoding: a word of every row, written out from R74 (95_test_vectors.md 2.1, decode masks) -/

/-- FIX `c c c c` and ADDR `c n n n`. -/
theorem test_decode_fix_addr :
    decode 0b0000000011100000 = some .cls ∧ decode 0b0000000011101110 = some .ret ∧
    decode 0b0000000011100001 = some (.sysAddr 0x0E1) ∧ decode 0b0001101010111100 = some (.jpAddr 0xABC) ∧
    decode 0b0010001000010000 = some (.callAddr 0x210) ∧ decode 0b1010000100100011 = some (.ldIAddr 0x123) ∧
    decode 0b1011001100000000 = some (.jpV0Addr 0x300) := by decide

/-- XKK `c x k k`. -/
theorem test_decode_xkk :
    decode 0b0011001100011111 = some (.seVxKk 3 0x1F) ∧ decode 0b0100010101000100 = some (.sneVxKk 5 0x44) ∧
    decode 0b0110101000000111 = some (.ldVxKk 0xA 0x07) ∧ decode 0b0111000111111110 = some (.addVxKk 1 0xFE) ∧
    decode 0b1100000100001111 = some (.rndVxKk 1 0x0F) := by decide

/-- XYF `c x y f`, the skips, the copy and the logic. -/
theorem test_decode_xyf_logic :
    decode 0b0101000000010000 = some (.seVxVy 0 1) ∧ decode 0b1001000000100000 = some (.sneVxVy 0 2) ∧
    decode 0b1000000100100000 = some (.ldVxVy 1 2) ∧ decode 0b1000000100100001 = some (.orVxVy 1 2) ∧
    decode 0b1000000100100010 = some (.andVxVy 1 2) ∧ decode 0b1000000100100011 = some (.xorVxVy 1 2) := by
  decide

/-- XYF, the arithmetic: SHR and SHL keep their ignored y. -/
theorem test_decode_xyf_arithmetic :
    decode 0b1000000100100100 = some (.addVxVy 1 2) ∧ decode 0b1000000100100101 = some (.subVxVy 1 2) ∧
    decode 0b1000000100100110 = some (.shrVx 1 2) ∧ decode 0b1000000100100111 = some (.subnVxVy 1 2) ∧
    decode 0b1000000111111110 = some (.shlVx 1 0xF) := by decide

/-- XYN `D x y n`, and XFF with high nibble E. -/
theorem test_decode_drw_keys :
    decode 0b1101101111000101 = some (.drwVxVyN 0xB 0xC 5) ∧ decode 0b1110000110011110 = some (.skpVx 1) ∧
    decode 0b1110001010100001 = some (.sknpVx 2) := by decide

/-- XFF `c x f f` with high nibble F. -/
theorem test_decode_xff :
    decode 0b1111000100000111 = some (.ldVxDt 1) ∧ decode 0b1111000100001010 = some (.ldVxK 1) ∧
    decode 0b1111000100010101 = some (.ldDtVx 1) ∧ decode 0b1111001000011000 = some (.ldStVx 2) ∧
    decode 0b1111001000011110 = some (.addIVx 2) ∧ decode 0b1111101000101001 = some (.ldFVx 0xA) ∧
    decode 0b1111000100110011 = some (.ldBVx 1) ∧ decode 0b1111001001010101 = some (.ldMemVx 2) ∧
    decode 0b1111001001100101 = some (.ldVxMem 2) := by decide

/-- V-E6: unknown words. -/
theorem test_decode_unknown :
    [0x8008, 0x800F, 0x9001, 0xE09F, 0xE000, 0xF0FF, 0xF000, 0xF100, 0x5121].map decode =
      List.replicate 9 none := by decide

/-- Big-endian, and the table's numbering (20_memory.md R53). -/
theorem test_decode_bytes :
    decodeBytes [0xF1, 0x0A, 0x44] = .ok (.ldVxK 1, [0x44]) ∧ decodeBytes [0xF1] = .error .truncated ∧
    decodeBytes [0x51, 0x21] = .error (.unknownOpcode 0x5121) ∧
    decodeTableWord 16 0xF10A = some (.ldVxK 1) := ⟨rfl, rfl, rfl, by decide⟩

/-! ## The engine cycle (V-E) -/

/-- V-E2: a fetch at 0xFFF reads M[0xFFF], then M[0x000]. -/
theorem test_fetch_wraps :
    (stepped (bytesAt { State.reset with pc := 0x0FFF } 0xFFF [0x60])).reg 0 = 0xF0 ∧
    (stepped (bytesAt { State.reset with pc := 0x0FFF } 0xFFF [0x60])).pc = 0x1001 := by decide

/-- V-E4: an unknown word is a no-op with a diagnostic. -/
theorem test_unknown_diag : stepped (boot 0x5121) = { boot 0x5121 with pc := 0x202, diags := [⟨0x200, 0x5121⟩] } := by
  decide

/-- V-E5: with STRICT_DECODE it faults. -/
theorem test_unknown_strict :
    stepped (bootWith strict 0x5121) =
      { bootWith strict 0x5121 with fault := .nonCanonicalOpcode, faultPc := 0x200, faultOp := 0x5121 } := by
  decide

/-- V-E8: a faulted engine does nothing. -/
theorem test_faulted_stays :
    stepped { boot 0x6001 with fault := .stackOverflow, dt := 5, st := 3 } =
      { boot 0x6001 with fault := .stackOverflow, dt := 5, st := 3 } := by decide

/-- V-E10, V-E11: under `external` steps do not count and ticks do. -/
theorem test_external_timers :
    (stepped { bootWith externalTimers 0x6000 with dt := 2, st := 1 }).dt = 2 ∧
    ({ bootWith externalTimers 0x6000 with dt := 2, st := 0 } : State).tick.dt = 1 ∧
    ({ bootWith externalTimers 0x6000 with dt := 2, st := 0 } : State).tick.st = 0 := by decide

/-! ## Control transfer (V-C) -/

/-- V-E7: SYS changes PC only, with no diagnostic. -/
theorem test_sys : stepped (boot 0x0123) = { boot 0x0123 with pc := 0x202 } := by decide

/-- V-C1. -/
theorem test_jp : (stepped (boot 0x1ABC)).pc = 0x0ABC := by decide

/-- V-C5. -/
theorem test_call :
    stepped { bootAt 0x300 0x2400 with sp := 15 } =
      { bootAt 0x300 0x2400 with sp := 16, pc := 0x400, stack := (Vector.replicate 16 0).set 15 0x302 } := by decide

/-- V-C6, V-E12: overflow, and no decrement on a fault. -/
theorem test_call_overflow :
    stepped { bootAt 0x300 0x2400 with sp := 16, dt := 4 } =
      { bootAt 0x300 0x2400 with
        sp := 16, dt := 4, fault := .stackOverflow, faultPc := 0x300, faultOp := 0x2400 } := by decide

/-- The stack of V-C7. -/
def twoReturns : Vector Word 16 := ((Vector.replicate 16 0).set 0 0x206).set 1 0x30A

/-- V-C7. -/
theorem test_ret :
    stepped { bootAt 0x210 0x00EE with sp := 2, stack := twoReturns } =
      { bootAt 0x210 0x00EE with sp := 1, stack := twoReturns, pc := 0x30A } := by decide

/-- V-C8. -/
theorem test_ret_underflow :
    stepped (boot 0x00EE) =
      { boot 0x00EE with fault := .stackUnderflow, faultPc := 0x200, faultOp := 0x00EE } := by decide

/-- V-C10: the target is kept above 0xFFF. -/
theorem test_jp_v0 : (stepped ((boot 0xBFFF).setReg 0 0xFF)).pc = 0x10FE := by decide

/-- V-C11: the x nibble is part of nnn. -/
theorem test_jp_v0_not_v1 : (stepped ((boot 0xB1FF).setReg 1 0x07)).pc = 0x01FF := by decide

/-- V-C12, V-C13. -/
theorem test_se_kk :
    (stepped ((boot 0x331F).setReg 3 0x1F)).pc = 0x204 ∧ (stepped ((boot 0x331F).setReg 3 0x20)).pc = 0x202 := by
  decide

/-- V-C14, V-C15. -/
theorem test_sne_kk :
    (stepped (bootAt 0x202 0x4444)).pc = 0x206 ∧ (stepped ((bootAt 0x202 0x4444).setReg 4 0x44)).pc = 0x204 := by
  decide

/-- V-C16, V-C17. -/
theorem test_se_vy :
    (stepped (((bootAt 0x206 0x5010).setReg 0 5).setReg 1 5)).pc = 0x20A ∧
    (stepped ((boot 0x5220).setReg 2 9)).pc = 0x204 := by decide

/-- V-C18, V-C19. -/
theorem test_sne_vy :
    (stepped (((bootAt 0x206 0x9010).setReg 0 5).setReg 1 4)).pc = 0x20A ∧
    (stepped ((boot 0x9220).setReg 2 9)).pc = 0x202 := by decide

/-! ## Arithmetic and logic (V-A) -/

/-- Two registers and a word. -/
def two (w : Nat) (x : RegIdx) (a : Byte) (y : RegIdx) (b : Byte) : State := ((boot w).setReg x a).setReg y b

/-- V-A1. -/
theorem test_ld_kk : (stepped (boot 0x6A07)).reg 0xA = 0x07 := by decide

/-- V-A4: no carry flag. -/
theorem test_add_kk_wraps :
    (stepped ((boot 0x7101).setReg 1 0xFF)).reg 1 = 0 ∧ (stepped ((boot 0x7101).setReg 1 0xFF)).reg 15 = 0 := by
  decide

/-- V-A6. -/
theorem test_ld_vy : (stepped ((boot 0x8120).setReg 2 0x5A)).reg 1 = 0x5A := by decide

/-- V-A7: VF is not reset. -/
theorem test_or :
    (stepped ((two 0x8121 1 0xF0 2 0x3C).setReg 15 0x77)).reg 1 = 0xFC ∧
    (stepped ((two 0x8121 1 0xF0 2 0x3C).setReg 15 0x77)).reg 15 = 0x77 := by decide

/-- V-A8. -/
theorem test_and : (stepped (two 0x8122 1 0xF0 2 0x3C)).reg 1 = 0x30 := by decide

/-- V-A9. -/
theorem test_xor : (stepped (two 0x8123 1 0xF0 2 0x3C)).reg 1 = 0xCC := by decide

/-- V-A11 (W3). -/
theorem test_add :
    (stepped (two 0x8124 1 0xFF 2 0x01)).reg 1 = 0 ∧ (stepped (two 0x8124 1 0xFF 2 0x01)).reg 15 = 1 := by decide

/-- V-A16: with x = 15 the sum overwrites the flag; V-A17: with y = 15 VF's old value is the operand. -/
theorem test_add_vf :
    (stepped (two 0x8F14 15 0x80 1 0x80)).reg 15 = 0 ∧ (stepped (two 0x80F4 0 0x10 15 0x01)).reg 0 = 0x11 ∧
    (stepped (two 0x80F4 0 0x10 15 0x01)).reg 15 = 0 := by decide

/-- V-A18 (W4). -/
theorem test_sub_borrows :
    (stepped (two 0x8125 1 0x05 2 0x0A)).reg 1 = 0xFB ∧ (stepped (two 0x8125 1 0x05 2 0x0A)).reg 15 = 0 := by
  decide

/-- V-A19: equal operands do not borrow. -/
theorem test_sub_equal :
    (stepped (two 0x8125 1 0x0A 2 0x0A)).reg 1 = 0 ∧ (stepped (two 0x8125 1 0x0A 2 0x0A)).reg 15 = 1 := by decide

/-- V-A24: y is ignored; V-A23 (W5). -/
theorem test_shr :
    (stepped (two 0x8126 1 0x04 2 0xFF)).reg 1 = 0x02 ∧ (stepped (two 0x8126 1 0x04 2 0xFF)).reg 2 = 0xFF ∧
    (stepped (two 0x8106 1 0x03 2 0)).reg 15 = 1 := by decide

/-- V-A26. -/
theorem test_shr_vf : (stepped ((boot 0x8F06).setReg 15 0x02)).reg 15 = 0x01 := by decide

/-- V-A28. -/
theorem test_subn :
    (stepped (two 0x8127 1 0x0A 2 0x05)).reg 1 = 0xFB ∧ (stepped (two 0x8127 1 0x0A 2 0x05)).reg 15 = 0 := by
  decide

/-- V-A31, V-A32. -/
theorem test_shl :
    (stepped (two 0x810E 1 0x80 2 0)).reg 15 = 1 ∧ (stepped (two 0x81FE 1 0x7F 2 0)).reg 1 = 0xFE ∧
    (stepped (two 0x81FE 1 0x7F 2 0)).reg 15 = 0 := by decide

/-- V-A33. -/
theorem test_shl_vf : (stepped ((boot 0x8F0E).setReg 15 0x81)).reg 15 = 0x02 := by decide

/-- V-A34. -/
theorem test_rnd :
    (stepped ((boot 0xC10F).supplyRnd 0xAB)).reg 1 = 0x0B ∧ (stepped ((boot 0xC10F).supplyRnd 0xAB)).rndQueue = [] := by
  decide

/-! ## Index register and memory (V-M) -/

/-- V-M1. -/
theorem test_ld_i : (stepped (boot 0xA123)).i = 0x0123 := by decide

/-- V-M3, V-M4: 16 bits, VF not written. -/
theorem test_add_i :
    (stepped { two 0xF11E 1 0x01 15 0x77 with i := 0x0FFF }).i = 0x1000 ∧
    (stepped { two 0xF11E 1 0x01 15 0x77 with i := 0x0FFF }).reg 15 = 0x77 ∧
    (stepped { two 0xF11E 1 0x02 15 0x77 with i := 0xFFFF }).i = 0x0001 := by decide

/-- V-M6, V-M8: V[x] is not masked. -/
theorem test_ld_f :
    (stepped ((boot 0xFA29).setReg 0xA 0x0A)).i = 0x0032 ∧ (stepped ((boot 0xF129).setReg 1 0xFF)).i = 0x04FB := by
  decide

/-- V-M9 (W6). -/
theorem test_ld_b :
    [0x300, 0x301, 0x302].map (stepped { (boot 0xF133).setReg 1 0x7B with i := 0x0300 }).memRead = [1, 2, 3] := by
  decide

/-- V-M14: the block wraps onto the font. -/
theorem test_ld_b_wraps :
    [0xFFF, 0x000, 0x001].map (stepped { (boot 0xF133).setReg 1 0x7B with i := 0x0FFF }).memRead = [1, 2, 3] := by
  decide

/-- V-M15. -/
theorem test_ld_mem :
    [0x300, 0x301, 0x302, 0x303].map
      (stepped { ((boot 0xF255).setReg 0 1).setReg 1 2 |>.setReg 2 3 |>.setReg 3 4 with i := 0x0300 }).memRead =
        [1, 2, 3, 0] := by decide

/-- V-M18. -/
theorem test_ld_from_mem :
    [0, 1, 2, 3].map (stepped (bytesAt { boot 0xF265 with i := 0x0300 } 0x300 [2, 5, 4, 9])).reg = [2, 5, 4, 0] := by
  decide

/-- V-M20: I above 0xFFF reads mod 4096. -/
theorem test_ld_from_mem_wraps : (stepped { boot 0xF065 with i := 0x1000 }).reg 0 = 0xF0 := by decide

/-! ## Keypad and timers (V-K) -/

/-- V-K1, V-K2, V-K6. -/
theorem test_skp :
    (stepped (((boot 0xE19E).setReg 1 5).setKey 5 true)).pc = 0x204 ∧ (stepped ((boot 0xE19E).setReg 1 5)).pc = 0x202 ∧
    (stepped (((bootWith lowNibbleKeys 0xE19E).setReg 1 0x10).setKey 0 true)).pc = 0x204 := by decide

/-- V-K5. -/
theorem test_skp_out_of_range :
    stepped ((boot 0xE19E).setReg 1 0x10) =
      { (boot 0xE19E).setReg 1 0x10 with fault := .keyIndexRange, faultPc := 0x200, faultOp := 0xE19E } := by decide

/-- V-K3, V-K4. -/
theorem test_sknp :
    (stepped ((boot 0xE1A1).setReg 1 5)).pc = 0x204 ∧
    (stepped (((boot 0xE1A1).setReg 1 5).setKey 5 true)).pc = 0x202 := by decide

/-- V-K7: the value before the decrement. -/
theorem test_ld_vx_dt :
    (stepped { boot 0xF107 with dt := 0x3C }).reg 1 = 0x3C ∧ (stepped { boot 0xF107 with dt := 0x3C }).dt = 0x3B := by
  decide

/-- V-K9, V-K12: no key, PC stays at p and the timers count. -/
theorem test_ld_vx_k_waits :
    stepped { boot 0xF10A with dt := 2 } = { boot 0xF10A with dt := 1 } := by decide

/-- V-K10: the least pressed key. -/
theorem test_ld_vx_k :
    (stepped (((boot 0xF10A).setKey 9 true).setKey 7 true)).reg 1 = 7 ∧
    (stepped (((boot 0xF10A).setKey 9 true).setKey 7 true)).pc = 0x202 := by decide

/-- V-K13, V-K14. -/
theorem test_ld_dt :
    (stepped ((boot 0xF115).setReg 1 5)).dt = 4 ∧ (stepped ((bootWith externalTimers 0xF115).setReg 1 5)).dt = 5 := by
  decide

/-- V-K15, V-K16, V-K17. -/
theorem test_ld_st :
    (stepped ((boot 0xF218).setReg 2 0x0A)).st = 9 ∧ (stepped ((boot 0xF218).setReg 2 1)).soundOn = false ∧
    (stepped ((bootWith externalTimers 0xF218).setReg 2 0x0A)).st = 0x0A := by decide

/-! ## Display (V-D) -/

/-- The display with the pixels (0,0) and (63,31) lit (V-D1). -/
def cornersLit : Vector (BitVec 64) 32 := ((Vector.replicate 32 0).set 0 1).set 31 0x8000000000000000

/-- V-D1. -/
theorem test_cls :
    stepped { (boot 0x00E0).setReg 15 0x55 with display := cornersLit } =
      { (boot 0x00E0).setReg 15 0x55 with pc := 0x202 } := by decide

/-- V-D5: bit 7 is leftmost, and the coordinates are reduced first. -/
theorem test_drw_pixel :
    (stepped (bytesAt { two 0xD121 1 0x41 2 0x21 with i := 0x0300 } 0x300 [0x80])).display =
      (Vector.replicate 32 0).set 1 2 := by decide

/-- V-D10: under `wrap` a pixel at the other side is erased. -/
theorem test_drw_wraps :
    (stepped (bytesAt
      { bootWith wrapEdge 0xD121 with
        v := (Vector.replicate 16 0).set 1 0x3C, i := 0x0300, display := (Vector.replicate 32 0).set 0 1 }
      0x300 [0xFF])).display = (Vector.replicate 32 0).set 0 0xF00000000000000E ∧
    (stepped (bytesAt
      { bootWith wrapEdge 0xD121 with
        v := (Vector.replicate 16 0).set 1 0x3C, i := 0x0300, display := (Vector.replicate 32 0).set 0 1 }
      0x300 [0xFF])).reg 15 = 1 := by decide

/-! ## Reset and load (V-R, W1) -/

/-- W1: digits 0, 7 and F of the default font after reset. -/
theorem test_reset_font :
    [0x00, 0x01, 0x23, 0x27, 0x4B, 0x4F, 0x50].map State.reset.memRead = [0xF0, 0x90, 0xF0, 0x40, 0xF0, 0x80, 0] := by
  decide

/-- V-R2: a load leaves the faulted state. -/
theorem test_load_clears_fault :
    (({ boot 0x6001 with fault := .stackOverflow, faultPc := 0x300, pc := 0x456 } : State).load [0x12, 0x00]) =
      (.ok, { State.reset with mem := [(0x200, 0x12)] }) := by decide

/-! ## The test helper of the host -/

/-- The word placed for the next step runs first after reset. -/
theorem test_with_fetch_word : (stepped (State.reset.withFetchWord 16 0x6A07)).reg 0xA = 0x07 := by decide

/-! ## Witnesses: a state and operands that meet the hypotheses of each obligation -/

/-- The five field hypotheses of DecodeSelectsTheFirstMatchingRow are met for every word. -/
theorem witness_DecodeSelects_fields (w : Word) :
    (fieldX w).val = w.toNat / 256 % 16 ∧ (fieldY w).val = w.toNat / 16 % 16 ∧ (fieldN w).val = w.toNat % 16 ∧
    (fieldKk w).toNat = w.toNat % 256 ∧ (fieldNnn w).toNat = w.toNat % 4096 :=
  ⟨fieldX_val w, fieldY_val w, fieldN_val w, fieldKk_toNat w, fieldNnn_toNat w⟩

/-- Words (word, mask, match) that meet the clauses of rows 1 to 10, every field all ones. -/
def clausesA : List (Word × Word × Word) :=
  [(0x00E0, 0xFFFF, 0x00E0), (0x00EE, 0xFFFF, 0x00EE), (0x0FFF, 0xF000, 0x0000), (0x0000, 0xF000, 0x0000),
   (0x1FFF, 0xF000, 0x1000), (0x2FFF, 0xF000, 0x2000), (0x3FFF, 0xF000, 0x3000), (0x4FFF, 0xF000, 0x4000),
   (0x5FF0, 0xF00F, 0x5000), (0x6FFF, 0xF000, 0x6000), (0x7FFF, 0xF000, 0x7000)]

/-- Rows 11 to 20. -/
def clausesB : List (Word × Word × Word) :=
  [(0x8FF0, 0xF00F, 0x8000), (0x8FF1, 0xF00F, 0x8001), (0x8FF2, 0xF00F, 0x8002), (0x8FF3, 0xF00F, 0x8003),
   (0x8FF4, 0xF00F, 0x8004), (0x8FF5, 0xF00F, 0x8005), (0x8FF6, 0xF00F, 0x8006), (0x8FF7, 0xF00F, 0x8007),
   (0x8FFE, 0xF00F, 0x800E), (0x9FF0, 0xF00F, 0x9000)]

/-- Rows 21 to 35. -/
def clausesC : List (Word × Word × Word) :=
  [(0xAFFF, 0xF000, 0xA000), (0xBFFF, 0xF000, 0xB000), (0xCFFF, 0xF000, 0xC000), (0xDFFF, 0xF000, 0xD000),
   (0xEF9E, 0xF0FF, 0xE09E), (0xEFA1, 0xF0FF, 0xE0A1), (0xFF07, 0xF0FF, 0xF007), (0xFF0A, 0xF0FF, 0xF00A),
   (0xFF15, 0xF0FF, 0xF015), (0xFF18, 0xF0FF, 0xF018), (0xFF1E, 0xF0FF, 0xF01E), (0xFF29, 0xF0FF, 0xF029),
   (0xFF33, 0xF0FF, 0xF033), (0xFF55, 0xF0FF, 0xF055), (0xFF65, 0xF0FF, 0xF065)]

theorem witness_DecodeSelects_clauses :
    (clausesA.all fun r => r.1 &&& r.2.1 == r.2.2) = true ∧ (clausesB.all fun r => r.1 &&& r.2.1 == r.2.2) = true ∧
    (clausesC.all fun r => r.1 &&& r.2.1 == r.2.2) = true ∧
    (0x0FFF : Word) ≠ 0x00E0 ∧ (0x0FFF : Word) ≠ 0x00EE ∧ (0x0000 : Word) ≠ 0x00E0 ∧ (0x0000 : Word) ≠ 0x00EE :=
  ⟨by decide, by decide, by decide, by decide, by decide, by decide, by decide⟩

theorem witness_OnlySysOverlapsEarlierRows :
    ∃ (r q r' : Row), opcodeMap[0]? = some r ∧ opcodeMap[1]? = some r' ∧ opcodeMap[2]? = some q ∧
      r.selects 0x00E0 = true ∧ q.selects 0x00E0 = true ∧ r'.selects 0x00EE = true ∧ q.selects 0x00EE = true :=
  ⟨_, _, _, rfl, rfl, rfl, by decide, by decide, by decide, by decide⟩

theorem witness_DecodeOfEncode :
    (Instr.sysAddr 0x0E1).wellFormed = true ∧ (Instr.drwVxVyN 15 15 15).wellFormed = true := by decide

theorem witness_EncodeOfDecode : decode 0x8FF6 = some (.shrVx 15 15) ∧ decode 0x0000 = some (.sysAddr 0) := by
  decide

theorem witness_StepRunsTheDecodedInstruction :
    (boot 0x8124).fault = .noFault ∧ decode (boot 0x8124).fetchWord = some (.addVxVy 1 2) ∧
    exec (.addVxVy 1 2) (boot 0x8124).advance = .next (after (exec (.addVxVy 1 2) (boot 0x8124).advance)) :=
  ⟨by decide, by decide, rfl⟩

/-- An engine at LD V0,0 with a running timer, under each TIMER_SOURCE; an unknown word; a CALL that faults. -/
theorem witness_CompletedStep :
    (decode (boot 0x6000).fetchWord = some (.ldVxKk 0 0) ∧
      exec (.ldVxKk 0 0) { boot 0x6000 with dt := 1, pc := 0x202 } =
        .next (({ boot 0x6000 with dt := 1, pc := 0x202 } : State).setReg 0 0) ∧
      (boot 0x6000).config.timerSource = .perStep) ∧
    (decode (bootWith externalTimers 0x6000).fetchWord = some (.ldVxKk 0 0) ∧
      (bootWith externalTimers 0x6000).config.timerSource = .external) ∧
    decode (boot 0x5121).fetchWord = none ∧
    (decode (boot 0x2300).fetchWord = some (.callAddr 0x300) ∧
      (after (exec (.callAddr 0x300) { boot 0x2300 with sp := 16, dt := 1 })).fault ≠ .noFault) :=
  ⟨⟨by decide, rfl, by decide⟩, by decide, by decide, by decide, by decide⟩

theorem witness_UnknownOpcode :
    (boot 0x5121).fault = .noFault ∧ decode (boot 0x5121).fetchWord = none ∧
    (boot 0x5121).config.strictDecode = false ∧ (boot 0x5121).config.timerSource = .perStep ∧
    decode (bootWith externalTimers 0xFFFF).fetchWord = none ∧
    (bootWith externalTimers 0xFFFF).config.timerSource = .external ∧
    decode (bootWith strict 0x5121).fetchWord = none ∧ (bootWith strict 0x5121).config.strictDecode = true := by
  decide

/-- The engine after StackUnderflow (V-C8). -/
def underflowed : State := stepped (boot 0x00EE)

theorem witness_FaultedEngineNeverMoves : underflowed.Faulted :=
  (by decide : underflowed.fault ≠ .noFault)

/-- Whole-machine rules: an instruction outside the exceptions that answers a next state. -/
theorem witness_whole_machine_rules :
    exec (.ldVxMem 15) (boot 0xFF65) = .next (after (exec (.ldVxMem 15) (boot 0xFF65))) ∧
    (∀ a, Instr.ldVxMem 15 ≠ .ldIAddr a) ∧ (∀ x, Instr.ldVxMem 15 ≠ .addIVx x) ∧
    (∀ x, Instr.ldVxMem 15 ≠ .ldFVx x) ∧ (∀ x, Instr.ldVxMem 15 ≠ .ldBVx x) ∧
    (∀ x, Instr.ldVxMem 15 ≠ .ldMemVx x) ∧ (∀ a, Instr.ldVxMem 15 ≠ .callAddr a) ∧ Instr.ldVxMem 15 ≠ .ret ∧
    Instr.ldVxMem 15 ≠ .cls ∧ (∀ x y n, Instr.ldVxMem 15 ≠ .drwVxVyN x y n) :=
  ⟨rfl, nofun, nofun, nofun, nofun, nofun, nofun, nofun, nofun, nofun⟩

/-- OnlyCallAndRetReachTheStack: a RET, which is no CALL, with a slot other than S[SP]. -/
theorem witness_OnlyCallAndRet :
    exec .ret { boot 0x00EE with sp := 1 } = .next (after (exec .ret { boot 0x00EE with sp := 1 })) ∧
    (∀ a, Instr.ret ≠ .callAddr a) ∧ (15 : Fin 16).val ≠ (1 : Fin 17).val := ⟨rfl, nofun, by decide⟩

/-- A block load up to V14 is outside every exception of VfWrittenOnlyAsFlagOrDestination. -/
theorem witness_VfWritten :
    exec (.ldVxMem 14) (boot 0xFE65) = .next (after (exec (.ldVxMem 14) (boot 0xFE65))) ∧
    (∀ x y, Instr.ldVxMem 14 ≠ .addVxVy x y ∧ Instr.ldVxMem 14 ≠ .subVxVy x y ∧ Instr.ldVxMem 14 ≠ .shrVx x y ∧
      Instr.ldVxMem 14 ≠ .subnVxVy x y ∧ Instr.ldVxMem 14 ≠ .shlVx x y) ∧
    (∀ x y n, Instr.ldVxMem 14 ≠ .drwVxVyN x y n) ∧
    (∀ kk, Instr.ldVxMem 14 ≠ .ldVxKk 15 kk ∧ Instr.ldVxMem 14 ≠ .addVxKk 15 kk ∧
      Instr.ldVxMem 14 ≠ .rndVxKk 15 kk) ∧
    (∀ y, Instr.ldVxMem 14 ≠ .ldVxVy 15 y ∧ Instr.ldVxMem 14 ≠ .orVxVy 15 y ∧ Instr.ldVxMem 14 ≠ .andVxVy 15 y ∧
      Instr.ldVxMem 14 ≠ .xorVxVy 15 y) ∧
    Instr.ldVxMem 14 ≠ .ldVxDt 15 ∧ Instr.ldVxMem 14 ≠ .ldVxK 15 ∧ Instr.ldVxMem 14 ≠ .ldVxMem 15 :=
  ⟨rfl, fun _ _ => ⟨nofun, nofun, nofun, nofun, nofun⟩, nofun, fun _ => ⟨nofun, nofun, nofun⟩,
    fun _ => ⟨nofun, nofun, nofun, nofun⟩, nofun, nofun, by decide⟩

/-- NoStepWritesKeypadOrParameters and SoundTimerIsNeverRead: a step of a state and of its twin. -/
theorem witness_twin_steps :
    step (boot 0xF218) = .next (stepped (boot 0xF218)) ∧
    step { boot 0xF218 with st := 9 } = .next (stepped { boot 0xF218 with st := 9 }) := ⟨rfl, rfl⟩

theorem witness_FaultEntryIsPrecise :
    (boot 0x00EE).fault = .noFault ∧ step (boot 0x00EE) = .next underflowed ∧ underflowed.fault ≠ .noFault :=
  ⟨by decide, rfl, by decide⟩

/-- CALL with an empty stack, with one free slot, and with a full stack; RET likewise. -/
theorem witness_call_and_ret_bounds :
    (boot 0x2300).sp.val = (0 : Fin 16).val ∧ ({ boot 0x2300 with sp := 15 } : State).sp.val = (15 : Fin 16).val ∧
    ({ boot 0x2300 with sp := 16 } : State).sp.val = 16 ∧
    ({ boot 0x00EE with sp := 1 } : State).sp.val = (0 : Fin 16).val + 1 ∧
    ({ boot 0x00EE with sp := 16 } : State).sp.val = (15 : Fin 16).val + 1 ∧ (boot 0x00EE).sp.val = 0 := by decide

/-- CALL 0x210 at 0x204 with RET at 0x210 (W8), with the last free slot. -/
def callThenRet : State := bytesAt { bootAt 0x204 0x2210 with sp := 15 } 0x210 [0x00, 0xEE]

theorem witness_CallThenRetReturns :
    callThenRet.fault = .noFault ∧ decode callThenRet.fetchWord = some (.callAddr 0x210) ∧
    callThenRet.sp.val = (15 : Fin 16).val ∧ step callThenRet = .next (stepped callThenRet) ∧
    decode (stepped callThenRet).fetchWord = some .ret := ⟨by decide, by decide, by decide, rfl, by decide⟩

/-- The clauses on VF where x is not 15: ADD, SUB, SUBN, SHR, SHL. -/
theorem witness_flag_writers : (14 : RegIdx) ≠ 15 := by decide

theorem witness_RndMasksTheRandomByte : ((boot 0xC10F).supplyRnd 0xAB).rndQueue = 0xAB :: [] := by decide

/-- An address outside the three digits of LD B, and outside the sixteen bytes of LD [I],VF, that wrap past 0xFFF. -/
theorem witness_outside_the_block :
    (∀ k, k < 3 → 2 % 4096 ≠ ({ boot 0xF133 with i := 0x0FFF } : State).indexed k % 4096) ∧
    (∀ k, k ≤ (15 : RegIdx).val → 0xFF7 % 4096 ≠ ({ boot 0xFF55 with i := 0x0FF8 } : State).indexed k % 4096) := by
  refine ⟨fun k hk => ?_, fun k hk => ?_⟩
  · have e : ({ boot 0xF133 with i := 0x0FFF } : State).indexed k = 4095 + k := rfl
    rw [e]; omega
  · have e : ({ boot 0xFF55 with i := 0x0FF8 } : State).indexed k = 4088 + k := rfl
    have : k ≤ 15 := hk
    rw [e]; omega

theorem witness_BlockStoreThenLoadRestores :
    exec (.ldMemVx 15) (boot 0xFF55) = .next (after (exec (.ldMemVx 15) (boot 0xFF55))) ∧
    (after (exec (.ldMemVx 15) (boot 0xFF55))).mem = (after (exec (.ldMemVx 15) (boot 0xFF55))).mem := ⟨rfl, rfl⟩

/-- P7: LD [I],V0 with I at the next word. -/
def storeOverNext : State := { boot 0xF055 with i := 0x0202 }

/-- LD [I],VF whose sixteenth byte lands on the next word's low byte. -/
def storeEndsOnNext : State := { boot 0xFF55 with i := 0x01F4 }

/-- LD [I],V0 whose byte lands past the next word. -/
def storePastNext : State := { boot 0xF055 with i := 0x0204 }

/-- A byte on the high byte and none on the low one; a byte on the low byte; a store that leaves the high byte. -/
theorem witness_StoreIsSeen_registers :
    (storeOverNext.fault = .noFault ∧ decode storeOverNext.fetchWord = some (.ldMemVx 0) ∧
      storeOverNext.indexed (0 : RegIdx).val % 4096 = (storeOverNext.pc.toNat + 2) % 4096 ∧
      ∀ k, k ≤ (0 : RegIdx).val → storeOverNext.indexed k % 4096 ≠ (storeOverNext.pc.toNat + 3) % 4096) ∧
    (storeEndsOnNext.fault = .noFault ∧ decode storeEndsOnNext.fetchWord = some (.ldMemVx 15) ∧
      storeEndsOnNext.indexed (15 : RegIdx).val % 4096 = (storeEndsOnNext.pc.toNat + 3) % 4096) ∧
    (storePastNext.fault = .noFault ∧ decode storePastNext.fetchWord = some (.ldMemVx 0) ∧
      ∀ k, k ≤ (0 : RegIdx).val → storePastNext.indexed k % 4096 ≠ (storePastNext.pc.toNat + 2) % 4096) := by
  refine ⟨⟨by decide, by decide, by decide, fun k hk => ?_⟩, by decide, by decide, by decide, fun k hk => ?_⟩
  · obtain rfl : k = 0 := Nat.le_zero.1 hk
    decide
  · obtain rfl : k = 0 := Nat.le_zero.1 hk
    decide

/-- LD B,V1 whose last digit lands on the next word's high byte. -/
def bcdEndsOnNext : State := { (boot 0xF133).setReg 1 0x7B with i := 0x0200 }

/-- LD B,V1 whose first digit lands on the next word's low byte. -/
def bcdStartsOnNext : State := { (boot 0xF133).setReg 1 0x7B with i := 0x0203 }

theorem witness_StoreIsSeen_bcd :
    (bcdEndsOnNext.fault = .noFault ∧ decode bcdEndsOnNext.fetchWord = some (.ldBVx 1) ∧
      [(bcdEndsOnNext.reg 1).toNat / 100, (bcdEndsOnNext.reg 1).toNat / 10 % 10,
        (bcdEndsOnNext.reg 1).toNat % 10][2]? = some 3 ∧
      bcdEndsOnNext.indexed 2 % 4096 = (bcdEndsOnNext.pc.toNat + 2) % 4096 ∧
      ∀ k, k < 3 → bcdEndsOnNext.indexed k % 4096 ≠ (bcdEndsOnNext.pc.toNat + 3) % 4096) ∧
    (bcdStartsOnNext.fault = .noFault ∧ decode bcdStartsOnNext.fetchWord = some (.ldBVx 1) ∧
      [(bcdStartsOnNext.reg 1).toNat / 100, (bcdStartsOnNext.reg 1).toNat / 10 % 10,
        (bcdStartsOnNext.reg 1).toNat % 10][0]? = some 1 ∧
      bcdStartsOnNext.indexed 0 % 4096 = (bcdStartsOnNext.pc.toNat + 3) % 4096 ∧
      ∀ k, k < 3 → bcdStartsOnNext.indexed k % 4096 ≠ (bcdStartsOnNext.pc.toNat + 2) % 4096) := by
  decide

/-- The last key in range, and the first value out of range under each KEY_OOR. -/
theorem witness_KeySkipsTestTheNamedKey :
    ((15 : KeyIdx).val = (((boot 0xE19E).setReg 1 15).reg 1).toNat % 16 ∧
      (((boot 0xE19E).setReg 1 15).reg 1).toNat ≤ 15) ∧
    ((0 : KeyIdx).val = (((bootWith lowNibbleKeys 0xE19E).setReg 1 16).reg 1).toNat % 16 ∧
      ((bootWith lowNibbleKeys 0xE19E).setReg 1 16).config.keyOor = .lowNibble) ∧
    ((0 : KeyIdx).val = (((boot 0xE19E).setReg 1 16).reg 1).toNat % 16 ∧
      (((boot 0xE19E).setReg 1 16).reg 1).toNat > 15 ∧ ((boot 0xE19E).setReg 1 16).config.keyOor = .fault) := by
  decide

/-- Keys 7 and 15 pressed, key 15 alone pressed, and none. -/
theorem witness_KeyWaitTakesLeastPressedOrRetries :
    ((((boot 0xF10A).setKey 15 true).setKey 7 true).keys[(7 : KeyIdx)] = true ∧
      ∀ k : KeyIdx, k < 7 → (((boot 0xF10A).setKey 15 true).setKey 7 true).keys[k] = false) ∧
    (((boot 0xF10A).setKey 15 true).keys[(15 : KeyIdx)] = true ∧
      ∀ k : KeyIdx, k < 15 → ((boot 0xF10A).setKey 15 true).keys[k] = false) ∧
    ∀ k : KeyIdx, (boot 0xF10A).keys[k] = false := by decide

theorem witness_KeyWaitNeverEndsWithoutAKey : (boot 0xF10A).BlockedOnKey :=
  ⟨by decide, ⟨1, by decide⟩, by decide⟩

theorem witness_TimerLoads :
    decode (boot 0xF107).fetchWord = some (.ldVxDt 1) ∧ decode (boot 0xF115).fetchWord = some (.ldDtVx 1) ∧
    decode (bootWith externalTimers 0xF115).fetchWord = some (.ldDtVx 1) ∧
    decode (boot 0xF118).fetchWord = some (.ldStVx 1) ∧
    decode (bootWith externalTimers 0xF118).fetchWord = some (.ldStVx 1) ∧
    (boot 0xF107).fault = .noFault ∧ (boot 0xF115).config.timerSource = .perStep ∧
    (bootWith externalTimers 0xF115).config.timerSource = .external := by decide

/-- Two steps of SYS from a running timer. -/
theorem witness_DelayTimerCountsCompletedSteps :
    ∃ t, ({ State.reset with dt := 9 } : State).config.timerSource = .perStep ∧
      Host.Core.run Sys2Proof.core 2 { State.reset with dt := 9 } = .next t ∧ t.fault = .noFault ∧
      ∀ j u, j < 2 → Host.Core.run Sys2Proof.core j { State.reset with dt := 9 } = .next u →
        ∀ x, decode u.fetchWord ≠ some (.ldDtVx x) := by
  refine ⟨stepped (stepped { State.reset with dt := 9 }), by decide, rfl, by decide, fun j u hj hu x => ?_⟩
  have hs : j = 0 ∨ j = 1 := by omega
  rcases hs with rfl | rfl
  · cases hu
    have e : decode ({ State.reset with dt := 9 } : State).fetchWord = some (.sysAddr 0) := by decide
    rw [e]; nofun
  · have e' : Host.Core.run Sys2Proof.core 1 { State.reset with dt := 9 } =
        .next (stepped { State.reset with dt := 9 }) := rfl
    cases e'.symm.trans hu
    have e : decode (stepped { State.reset with dt := 9 }).fetchWord = some (.sysAddr 0) := by decide
    rw [e]; nofun

theorem witness_TickLowersTheTimers :
    (bootWith externalTimers 0x6000).config.timerSource = .external ∧ (bootWith externalTimers 0x6000).fault = .noFault ∧
    ({ bootWith externalTimers 0x6000 with fault := .drawEdge } : State).fault ≠ .noFault := by decide

/-- The hypotheses of DrwXorsTheSprite on `set` and `lands` define them: they are met for every state. -/
theorem witness_DrwXorsTheSprite_relations (x y : RegIdx) (n : Fin 16) (s : State) :
    ∃ (x0 y0 : Nat) (set : Nat → Nat → Prop) (lands : Fin 64 → Fin 32 → Prop),
      x0 = (s.reg x).toNat % 64 ∧ y0 = (s.reg y).toNat % 32 ∧
      (∀ r c, set r c ↔ r < n.val ∧ c < 8 ∧ (s.memRead (s.i.toNat + r)).getLsbD (7 - c) = true) ∧
      ∀ px py, lands px py ↔ ∃ r c, set r c ∧
        ((px.val = x0 + c ∧ py.val = y0 + r) ∨
          (s.config.drwEdge = .wrap ∧ px.val = (x0 + c) % 64 ∧ py.val = (y0 + r) % 32)) :=
  ⟨_, _, fun r c => r < n.val ∧ c < 8 ∧ (s.memRead (s.i.toNat + r)).getLsbD (7 - c) = true, fun _ _ => _, rfl, rfl,
    fun _ _ => Iff.rfl, fun _ _ => Iff.rfl⟩

/-- The sprite of V-D6 and V-D8 to V-D10: V1 = 60, one row FF at 0x300. -/
def edgeSprite (c : Config) : State :=
  bytesAt { bootWith c 0xD121 with v := (Vector.replicate 16 0).set 1 0x3C, i := 0x0300 } 0x300 [0xFF]

/-- V-D8: a set bit off-screen under `fault`; V-D6: the same sprite under `clip`, which lands on (63, 0); V-D10: a
lit pixel under the sprite; V-D6: none lit. -/
theorem witness_DrwXorsTheSprite_clauses :
    ((edgeSprite faultEdge).config.drwEdge = .fault ∧
      ((edgeSprite faultEdge).memRead ((edgeSprite faultEdge).i.toNat + 0)).getLsbD (7 - 4) = true ∧
      ((edgeSprite faultEdge).reg 1).toNat % 64 + 4 > 63) ∧
    ((edgeSprite defaultConfig).config.drwEdge ≠ .fault ∧
      ((edgeSprite defaultConfig).memRead ((edgeSprite defaultConfig).i.toNat + 0)).getLsbD (7 - 3) = true ∧
      (63 : Fin 64).val = ((edgeSprite defaultConfig).reg 1).toNat % 64 + 3) ∧
    ({ edgeSprite wrapEdge with display := (Vector.replicate 32 0).set 0 1 } : State).pixel 0 0 = true ∧
    (edgeSprite defaultConfig).display = Vector.replicate 32 0 := by decide

/-- W7: a first draw that completes and lights (0, 0). -/
theorem witness_DrawingTwiceRestoresTheDisplay :
    (1 : RegIdx) ≠ 15 ∧ (2 : RegIdx) ≠ 15 ∧ (boot 0xD125).fault = .noFault ∧
    exec (.drwVxVyN 1 2 5) (boot 0xD125) = .next (after (exec (.drwVxVyN 1 2 5) (boot 0xD125))) ∧
    (after (exec (.drwVxVyN 1 2 5) (boot 0xD125))).fault = .noFault ∧ (boot 0xD125).pixel 0 0 = false ∧
    (after (exec (.drwVxVyN 1 2 5) (boot 0xD125))).pixel 0 0 = true :=
  ⟨by decide, by decide, by decide, rfl, by decide, by decide, by decide⟩

/-- W2: the longest ROM that loads, its last byte, the first address outside it, and the shortest that does not. -/
theorem witness_load_bounds :
    (List.replicate 3584 (0xAB : Byte)).length ≤ 3584 ∧ (List.replicate 3584 (0xAB : Byte))[3583]? = some 0xAB ∧
    (0x1FF < 0x200) ∧ 3584 < (List.replicate 3585 (0xAB : Byte)).length := by
  refine ⟨by rw [List.length_replicate], ?_, by decide, by rw [List.length_replicate]; decide⟩
  rw [List.getElem?_replicate, if_pos (by decide)]

/-- V-R6: two engines with other registers and the same parameters and random input. -/
theorem witness_LoadLeaksNothing :
    ([0x12, 0x00] : List Byte).length ≤ 3584 ∧ ((boot 0x6001).setReg 5 0x99).config = State.reset.config ∧
    ((boot 0x6001).setReg 5 0x99).rndQueue = State.reset.rndQueue ∧
    ((boot 0x6001).setReg 5 0x99).rndDraws = State.reset.rndDraws := by decide

/-- The largest value that fits each width of R247 and the least that does not; and the last place of each
numbered kind is written. -/
theorem witness_DebugWriteMustFit :
    255 < 256 ∧ 256 ≤ 256 ∧ 65535 < 65536 ∧ 65536 ≤ 65536 ∧ 16 < 17 ∧ 17 ≤ 17 ∧ 1 < 2 ∧ 2 ≤ 2 ∧
    (after (State.reset.debugWrite (.byte 4095) 255)).memRead 4095 = 255 ∧
    (after (State.reset.debugWrite .sp 16)).sp = 16 ∧
    (after (State.reset.debugWrite (.pixel 63 31) 1)).pixel 63 31 = true ∧
    Place.faultOp ∈ [Place.faultCode, .faultPc, .faultOp] := by decide

theorem witness_ParkedStateStaysParked : (boot 0x1200).Parked := ⟨by decide, 0x200, by decide, by decide⟩

/-- The invariant holds of the reset state and of a faulted one, and a step of each answers. -/
theorem witness_StepKeepsTheInvariant :
    State.reset.Inv ∧ step State.reset = .next (stepped State.reset) ∧
    underflowed.Inv ∧ step underflowed = .next underflowed :=
  ⟨⟨Memory.wf_nil _, rfl, rfl⟩, rfl, ⟨by decide, by decide, by decide, .ret, by decide, by decide⟩, rfl⟩

theorem witness_EveryInterleaving :
    State.reset.Inv ∧ ∀ p n, Move.debugWrite p n ∉ [.load [0x12, 0x00], .step, .setKey 3 true, .tick, .supplyRnd 7] :=
  ⟨⟨Memory.wf_nil _, rfl, rfl⟩, fun p n h => by simp at h⟩

end Sys2Proof.Tests
end

section
/-! SUPPORT. The registers an instruction may write (00_scope.md R10, 10_state.md R34), read off `writes`; then the
rule on VF. -/

namespace Sys2Proof.Machine

variable {s t : State} {i : Instr} {ps : List Place}

theorem OnlyPlaces.reg_eq (h : OnlyPlaces ps s t) (z : RegIdx) (hz : Place.reg z ∉ ps) : t.reg z = s.reg z :=
  BitVec.eq_of_toNat_eq (h.1 _ hz)

theorem reg_notMem_faultPlaces (z : RegIdx) : Place.reg z ∉ faultPlaces := by simp [faultPlaces]

theorem reg_notMem_allPixels (z : RegIdx) : Place.reg z ∉ allPixels := by simp [allPixels]

theorem reg_notMem_block (s : State) (n : Nat) (z : RegIdx) : Place.reg z ∉ s.block n := by simp [State.block]

/-- Register `z` is a destination of the instruction: as V[x], within the block V0..Vx, or as the flag VF. -/
def MayWriteReg (z : RegIdx) : Instr → Prop
  | .ldVxKk x _ | .addVxKk x _ | .rndVxKk x _ | .ldVxVy x _ | .orVxVy x _ | .andVxVy x _ | .xorVxVy x _
  | .ldVxDt x | .ldVxK x => z = x
  | .addVxVy x _ | .subVxVy x _ | .shrVx x _ | .subnVxVy x _ | .shlVx x _ => z = x ∨ z = 15
  | .drwVxVyN _ _ _ => z = 15
  | .ldVxMem x => z ≤ x
  | _ => False

/-- `MayWriteReg` names exactly the registers among the places of `writes`. -/
theorem reg_mem_writes (z : RegIdx) (i : Instr) (s : State) : Place.reg z ∈ writes i s ↔ MayWriteReg z i := by
  cases i with
  | ldVxMem x => exact mem_regsTo x z
  | cls => simp [writes, MayWriteReg, reg_notMem_allPixels]
  | callAddr nnn => by_cases h : s.sp = 16 <;> simp [writes, MayWriteReg, h, reg_notMem_faultPlaces]
  | ret | skpVx x | sknpVx x => simp [writes, MayWriteReg, reg_notMem_faultPlaces]
  | drwVxVyN x y n => simp [writes, MayWriteReg, reg_notMem_allPixels, reg_notMem_faultPlaces]
  | ldBVx x | ldMemVx x => simp [writes, MayWriteReg, reg_notMem_block]
  | _ => simp [writes, MayWriteReg]

/-- A register that is no destination of the instruction keeps its value. -/
theorem exec_reg_eq (h : exec i s = .next t) {z : RegIdx} (hz : ¬ MayWriteReg z i) : t.reg z = s.reg z :=
  (exec_onlyPlaces h).reg_eq z fun hm => hz ((reg_mem_writes z i s).1 hm)

end Sys2Proof.Machine

open Sys2Proof Sys2Proof.Machine

/-- Settles O17: outside the listed forms register 15 is no destination of the instruction, so it keeps its
value. -/
theorem vfWrittenOnlyAsFlagOrDestination : Obligations.VfWrittenOnlyAsFlagOrDestination := by
  intro i s t h hflag hdrw himm hreg hdt hkey hmem
  refine exec_reg_eq h fun hw => ?_
  cases i with
  | addVxVy x y | subVxVy x y | shrVx x y | subnVxVy x y | shlVx x y => simpa using hflag x y
  | drwVxVyN x y n => exact hdrw x y n rfl
  | ldVxKk x kk | addVxKk x kk | rndVxKk x kk =>
    obtain rfl : 15 = x := hw
    simpa using himm kk
  | ldVxVy x y | orVxVy x y | andVxVy x y | xorVxVy x y =>
    obtain rfl : 15 = x := hw
    simpa using hreg y
  | ldVxDt x =>
    obtain rfl : 15 = x := hw
    exact hdt rfl
  | ldVxK x =>
    obtain rfl : 15 = x := hw
    exact hkey rfl
  | ldVxMem x =>
    obtain rfl : x = 15 := Fin.last_le_iff.1 hw
    exact hmem rfl
  | _ => exact hw

end

section
/-! SUPPORT. The family of 10_state.md: which instruction reaches the index register, the stack or the keypad, read
off `writes`; and the sound timer, which every operation carries along and none reads. -/

namespace Sys2Proof.Machine

/-! ## I, the stack and the keypad (10_state.md R23, R25, R26, R32) -/

/-- The condition under which an instruction can change a place of I, the stack or the keypad; of any other place
it says nothing. -/
def Reaches (i : Instr) (s : State) : Place → Prop
  | .index  => (∃ a, i = .ldIAddr a) ∨ (∃ x, i = .addIVx x) ∨ ∃ x, i = .ldFVx x
  | .sp     => (∃ a, i = .callAddr a) ∨ i = .ret
  | .slot j => (∃ a, i = .callAddr a) ∧ j.val = s.sp.val
  | .key _  => False
  | _       => True

theorem reaches_of_mem_allPixels (i : Instr) (s : State) : ∀ p ∈ allPixels, Reaches i s p := by
  simp only [allPixels, List.mem_flatMap, List.mem_map]
  rintro _ ⟨_, -, _, -, rfl⟩
  trivial

/-- The instructions' frames keep to `Reaches`. -/
theorem reaches_of_mem_writes (i : Instr) (s : State) : ∀ p ∈ writes i s, Reaches i s p := by
  cases i with
  | callAddr nnn =>
    by_cases h : s.sp = 16
    · simp [writes, h, faultPlaces, Reaches]
    · have hlt : s.sp.val < 16 := Nat.lt_of_le_of_ne (Nat.le_of_lt_succ s.sp.isLt) fun e => h (Fin.ext e)
      simp [writes, h, Reaches, Nat.mod_eq_of_lt hlt]
  | cls => exact reaches_of_mem_allPixels _ s
  | drwVxVyN x y n =>
    simp only [writes, List.forall_mem_cons, List.forall_mem_append]
    exact ⟨trivial, reaches_of_mem_allPixels _ s, by simp [faultPlaces, Reaches]⟩
  | ret | skpVx x | sknpVx x => simp [writes, faultPlaces, Reaches]
  | ldBVx x | ldMemVx x => simp [writes, State.block, Reaches]
  | ldVxMem x => simp [writes, regsTo, Reaches]
  | _ => simp [writes, Reaches]

section

variable {i : Instr} {s t : State}

/-- A place the instruction does not reach reads as before. -/
theorem exec_debugRead_eq (h : exec i s = .next t) {p : Place} (hp : ¬ Reaches i s p) :
    t.debugRead p = s.debugRead p :=
  (exec_onlyPlaces h).1 p fun hm => hp (reaches_of_mem_writes i s p hm)

theorem exec_slot_eq (h : exec i s = .next t) (j : Fin 16) (hj : ¬ Reaches i s (.slot j)) :
    t.stack[j] = s.stack[j] :=
  BitVec.eq_of_toNat_eq (exec_debugRead_eq h hj)

/-- No instruction writes the keypad (10_state.md R32). -/
theorem exec_keys (h : exec i s = .next t) : t.keys = s.keys := by
  ext1 k hk
  exact bool_of_toNat (exec_debugRead_eq h (p := .key ⟨k, hk⟩) id)

theorem unknownOpcode_keys (w : Word) (s : State) : (unknownOpcode w s).keys = s.keys := by
  unfold unknownOpcode; split <;> rfl

end

/-! ## The step of an engine that is not faulted, forwards (40_engine_cycle.md R103, R104) -/

section

variable {s : State}

theorem step_of_decoded {i : Instr} {u : State} (hf : s.fault = .noFault) (hd : decode s.fetchWord = some i)
    (hu : exec i s.advance = .next u) : step s = .next u.endStep := by
  simp only [step, hf, if_true, runCycle, hd, hu, finishStep]

theorem step_of_unknown (hf : s.fault = .noFault) (hd : decode s.fetchWord = none) :
    step s = .next (unknownOpcode s.fetchWord s.advance).endStep := by
  simp only [step, hf, if_true, runCycle, hd, finishStep]

end

/-! ## The sound timer (10_state.md R28)

Each operation, run from the state with another ST, gives its own result with some ST put in. -/

variable (s : State) (c : Byte)

theorem storeBytes_withSt (a : Nat) (bs : List Byte) :
    ({ s with st := c } : State).storeBytes a bs = { s.storeBytes a bs with st := c } := by
  induction bs generalizing s a with
  | nil => rfl
  | cons b bs ih => exact ih (s.memWrite a b) (a + 1)

theorem flipPixels_withSt (hit : Bool) (ps : List (Fin 64 × Fin 32)) :
    ({ s with st := c } : State).flipPixels hit ps =
      ((s.flipPixels hit ps).1, { (s.flipPixels hit ps).2 with st := c }) := by
  induction ps generalizing s hit with
  | nil => rfl
  | cons p ps ih => exact ih (s.flipPixel p.1 p.2) (hit || s.pixel p.1 p.2)

theorem skipIf_withSt (b : Bool) : ({ s with st := c } : State).skipIf b = { s.skipIf b with st := c } := by
  cases b <;> rfl

theorem unknownOpcode_withSt (w : Word) :
    unknownOpcode w { s with st := c } = { unknownOpcode w s with st := c } := by
  cases h : s.config.strictDecode <;> simp [unknownOpcode, h] <;> rfl

/-- The end of a step lowers the two timers independently (44_keypad_timers.md R197). -/
theorem endStep_withSt : ∃ c', ({ s with st := c } : State).endStep = { s.endStep with st := c' } := by
  by_cases h : s.fault = .noFault ∧ s.config.timerSource = .perStep
  · exact ⟨timerDown c, by rw [State.endStep, State.endStep, if_pos h, if_pos h]; rfl⟩
  · exact ⟨c, by rw [State.endStep, State.endStep, if_neg h, if_neg h]⟩

/-- No instruction reads ST: from the state with another ST it answers the same next state, but for ST. -/
theorem exec_withSt (i : Instr) :
    ∃ t c', exec i s = .next t ∧ exec i { s with st := c } = .next { t with st := c' } := by
  cases i with
  | ret =>
    by_cases h : s.sp = 0
    · exact ⟨_, c, if_pos h, if_pos h⟩
    · exact ⟨_, c, if_neg h, if_neg h⟩
  | callAddr nnn =>
    by_cases h : s.sp = 16
    · exact ⟨_, c, if_pos h, if_pos h⟩
    · exact ⟨_, c, if_neg h, if_neg h⟩
  | seVxKk x kk | sneVxKk x kk | seVxVy x y | sneVxVy x y => exact ⟨_, c, rfl, congrArg _ (skipIf_withSt s c _)⟩
  | drwVxVyN x y n =>
    by_cases h : s.config.drwEdge = .fault ∧ s.spriteOffScreen x y n.val = true
    · exact ⟨_, c, if_pos h, if_pos h⟩
    · refine ⟨_, c, if_neg h, (if_neg h).trans ?_⟩
      rw [flipPixels_withSt]; rfl
  | skpVx x | sknpVx x =>
    simp only [exec, execSkpVx, execSknpVx, State.reg]
    split
    · exact ⟨_, c, rfl, rfl⟩
    · exact ⟨_, c, rfl, congrArg _ (skipIf_withSt s c _)⟩
  | ldVxK x =>
    simp only [exec, execLdVxK, State.firstPressed]
    split <;> exact ⟨_, c, rfl, rfl⟩
  | ldStVx x => exact ⟨_, s.reg x, rfl, rfl⟩
  | ldBVx x | ldMemVx x => exact ⟨_, c, rfl, congrArg _ (storeBytes_withSt s c _ _)⟩
  | _ => exact ⟨_, c, rfl, rfl⟩

/-- No step reads ST (10_state.md R28). -/
theorem step_withSt : ∃ t c', step s = .next t ∧ step { s with st := c } = .next { t with st := c' } := by
  by_cases hf : s.fault = .noFault
  · have hw : ({ s with st := c } : State).fetchWord = s.fetchWord := State.fetchWord_congr rfl rfl rfl
    cases hd : decode s.fetchWord with
    | none =>
      obtain ⟨c', hc⟩ := endStep_withSt (unknownOpcode s.fetchWord s.advance) c
      refine ⟨_, c', step_of_unknown hf hd, ?_⟩
      rw [step_of_unknown (s := { s with st := c }) hf (hw ▸ hd), hw, ← hc, ← unknownOpcode_withSt]
      rfl
    | some i =>
      obtain ⟨u, d, hu, hu'⟩ := exec_withSt s.advance c i
      obtain ⟨c', hc⟩ := endStep_withSt u d
      refine ⟨_, c', step_of_decoded hf hd hu, ?_⟩
      rw [← hc]
      exact step_of_decoded hf (hw ▸ hd) hu'
  · exact ⟨s, c, if_neg hf, if_neg hf⟩

end Sys2Proof.Machine

open Sys2Proof Sys2Proof.Machine

/-- Settles O13: of I an instruction outside the three reaches nothing. -/
theorem onlyThreeInstructionsWriteI : Obligations.OnlyThreeInstructionsWriteI := by
  intro i s t h hld hadd hfont
  refine BitVec.eq_of_toNat_eq (exec_debugRead_eq h (p := .index) ?_)
  rintro (⟨a, rfl⟩ | ⟨x, rfl⟩ | ⟨x, rfl⟩)
  · exact hld a rfl
  · exact hadd x rfl
  · exact hfont x rfl

/-- Settles O15: only CALL reaches a slot, and only S[SP]; only CALL and RET reach SP. -/
theorem onlyCallAndRetReachTheStack : Obligations.OnlyCallAndRetReachTheStack := by
  intro i s t h
  refine ⟨fun hcall => ?_, fun hcall hret => ?_, fun j hj => exec_slot_eq h j fun ⟨_, e⟩ => hj e⟩
  · ext1 j hj
    exact exec_slot_eq h ⟨j, hj⟩ fun ⟨⟨a, e⟩, _⟩ => hcall a e
  · refine Fin.ext (exec_debugRead_eq h (p := .sp) ?_)
    rintro (⟨a, e⟩ | e)
    · exact hcall a e
    · exact hret e

/-- Settles O18: neither the handler, the unknown-opcode answer nor the end of the step writes the keypad or a
parameter. -/
theorem noStepWritesKeypadOrParameters : Obligations.NoStepWritesKeypadOrParameters := by
  intro s t h
  obtain ⟨-, rfl⟩ | ⟨-, u, rfl, ⟨-, rfl⟩ | ⟨i, -, hu⟩⟩ := step_cases h
  · exact ⟨rfl, rfl⟩
  · simp [unknownOpcode_keys, unknownOpcode_config]
  · simp [exec_keys hu, exec_config hu]

/-- Settles O19: the second step is the first with some ST put in. -/
theorem soundTimerIsNeverRead : Obligations.SoundTimerIsNeverRead := by
  intro s t t' c h h'
  obtain ⟨u, c', hu, hu'⟩ := step_withSt s c
  obtain rfl : u = t := by simpa [hu] using h
  obtain rfl : { u with st := c' } = t' := by simpa [hu'] using h'
  exact setSt_frame u c'

/-- Settles O55: K[k] reads back, and the frame of `setKey` is that one key. -/
theorem setKeyWritesOneKey : Obligations.SetKeyWritesOneKey :=
  fun s k b => ⟨s.setKey k b, rfl, by simp, setKey_frame s k b⟩

end

section
/-! SUPPORT. The family of 20_memory.md: which instructions reach a byte of memory, read off `writes`; and the word
fetched after an instruction that stores at I. -/

namespace Sys2Proof.Machine

/-! ## The bytes an instruction reaches (20_memory.md R60) -/

theorem OnlyPlaces.memRead_eq {s t : State} {ps : List Place} (h : OnlyPlaces ps s t) (a : Nat)
    (ha : Place.byte (Fin.ofNat 4096 a) ∉ ps) : t.memRead a = s.memRead a := by
  have hbyte := BitVec.eq_of_toNat_eq (h.1 _ ha)
  simpa [State.memRead_mod] using hbyte

/-- No byte is among the places an instruction can change, but for the two that store at I. -/
theorem byte_notMem_writes (c : Fin 4096) (i : Instr) (s : State) (hbcd : ∀ x, i ≠ .ldBVx x)
    (hblock : ∀ x, i ≠ .ldMemVx x) : Place.byte c ∉ writes i s := by
  cases i with
  | ldBVx x => exact absurd rfl (hbcd x)
  | ldMemVx x => exact absurd rfl (hblock x)
  | callAddr nnn => by_cases h : s.sp = 16 <;> simp [writes, h, faultPlaces]
  | cls | ret | skpVx x | sknpVx x | drwVxVyN x y n => simp [writes, allPixels, faultPlaces]
  | ldVxMem x => simp [writes, regsTo]
  | _ => simp [writes]

/-! ## The fetch after a store at I (20_memory.md R64, 70_reset_and_hazards.md R267) -/

section

variable (s : State) (bs : List Byte)

/-- A byte of a block stored at I is read at every address equal to its own mod 4096. -/
theorem State.memRead_storeAtIndex {k c : Nat} {b : Byte} (hl : bs.length ≤ 4096) (hb : bs[k]? = some b)
    (hc : s.indexed k % 4096 = c % 4096) : (s.storeBytes (s.indexed 0) bs).memRead c = b := by
  obtain ⟨hk, hget⟩ := List.getElem?_eq_some_iff.1 hb
  have hread := s.memRead_storeBytes (s.indexed 0) k bs hl hk
  rw [hget] at hread
  rw [← State.memRead_mod, ← hc, State.memRead_mod]
  exact hread

/-- Every address outside the block stored at I reads as before. -/
theorem State.memRead_storeAtIndex_of_ne {c : Nat}
    (hc : ∀ k, k < bs.length → s.indexed k % 4096 ≠ c % 4096) :
    (s.storeBytes (s.indexed 0) bs).memRead c = s.memRead c :=
  s.memRead_storeBytes_of_ne (s.indexed 0) c bs fun k hk => (hc k hk).symm

/-- The state after the step of an instruction that stores `bs` at I. -/
def State.afterStore : State := (s.advance.storeBytes (s.advance.indexed 0) bs).endStep

/-- The handlers of LD B and LD [I],Vx store at I, so their steps end in `afterStore`. -/
theorem step_ldBVx {x : RegIdx} (hf : s.fault = .noFault) (hd : decode s.fetchWord = some (.ldBVx x)) :
    step s = .next (s.afterStore (bcdDigits (s.reg x))) := step_of_decoded hf hd rfl

theorem step_ldMemVx {x : RegIdx} (hf : s.fault = .noFault) (hd : decode s.fetchWord = some (.ldMemVx x)) :
    step s = .next (s.afterStore (s.regsUpTo x)) := step_of_decoded hf hd rfl

/-- The step after a store fetches the bytes the stored memory has at p + 2 and p + 3; PC wraps at 65536, a
multiple of the size of memory. -/
theorem fetchWord_afterStore :
    (s.afterStore bs).fetchWord.toNat / 256 =
      ((s.advance.storeBytes (s.advance.indexed 0) bs).memRead (s.pc.toNat + 2)).toNat ∧
    (s.afterStore bs).fetchWord.toNat % 256 =
      ((s.advance.storeBytes (s.advance.indexed 0) bs).memRead (s.pc.toNat + 3)).toNat := by
  have hpc : (s.afterStore bs).pc.toNat = (s.pc.toNat + 2) % 65536 := by
    simp [State.afterStore, BitVec.toNat_add]
  have hread : ∀ a c, a % 4096 = c % 4096 →
      (s.afterStore bs).memRead a = (s.advance.storeBytes (s.advance.indexed 0) bs).memRead c := fun a c hac => by
    rw [← State.memRead_mod _ a, hac, State.memRead_mod]
    exact State.memRead_congr (by simp [State.afterStore]) (by simp [State.afterStore]) c
  obtain ⟨hhi, hlo⟩ := fetchWord_bytes (s.afterStore bs)
  rw [hhi, hlo, hpc, hread _ (s.pc.toNat + 2) (by omega), hread _ (s.pc.toNat + 3) (by omega)]
  exact ⟨rfl, rfl⟩

/-- Each stored byte that reaches the next word is fetched there. -/
theorem fetchWord_afterStore_stored {k : Nat} {b : Byte} (hl : bs.length ≤ 4096) (hb : bs[k]? = some b) :
    (s.indexed k % 4096 = (s.pc.toNat + 2) % 4096 → (s.afterStore bs).fetchWord.toNat / 256 = b.toNat) ∧
    (s.indexed k % 4096 = (s.pc.toNat + 3) % 4096 → (s.afterStore bs).fetchWord.toNat % 256 = b.toNat) := by
  obtain ⟨hhi, hlo⟩ := fetchWord_afterStore s bs
  refine ⟨fun h => ?_, fun h => ?_⟩
  · rw [hhi, s.advance.memRead_storeAtIndex bs hl hb h]
  · rw [hlo, s.advance.memRead_storeAtIndex bs hl hb h]

/-- A byte of the next word that is not stored to is fetched as it was. -/
theorem fetchWord_afterStore_kept :
    ((∀ k, k < bs.length → s.indexed k % 4096 ≠ (s.pc.toNat + 2) % 4096) →
      (s.afterStore bs).fetchWord.toNat / 256 = (s.memRead (s.pc.toNat + 2)).toNat) ∧
    ((∀ k, k < bs.length → s.indexed k % 4096 ≠ (s.pc.toNat + 3) % 4096) →
      (s.afterStore bs).fetchWord.toNat % 256 = (s.memRead (s.pc.toNat + 3)).toNat) := by
  obtain ⟨hhi, hlo⟩ := fetchWord_afterStore s bs
  refine ⟨fun h => ?_, fun h => ?_⟩
  · rw [hhi, s.advance.memRead_storeAtIndex_of_ne bs h]; rfl
  · rw [hlo, s.advance.memRead_storeAtIndex_of_ne bs h]; rfl

end

/-! ## The bytes stored: digits and registers (43_index_memory.md R173, R174) -/

theorem bcdDigits_map_toNat (b : Byte) :
    (bcdDigits b).map BitVec.toNat = [b.toNat / 100, b.toNat / 10 % 10, b.toNat % 10] := by
  have hlt := b.isLt
  simp only [bcdDigits, List.map_cons, List.map_nil, BitVec.toNat_ofNat, List.cons.injEq, and_true]
  omega

theorem regsUpTo_getElem? (s : State) {x k : RegIdx} (hk : k ≤ x) : (s.regsUpTo x)[k.val]? = some (s.reg k) := by
  have hlt : k.val < (s.regsUpTo x).length := by rw [regsUpTo_length]; exact Nat.lt_succ_of_le hk
  rw [List.getElem?_eq_getElem hlt, regsUpTo_get]

end Sys2Proof.Machine

open Sys2Proof Sys2Proof.Machine

/-- Settles O14: of memory an instruction outside the two reaches no byte. -/
theorem onlyTwoInstructionsWriteMemory : Obligations.OnlyTwoInstructionsWriteMemory :=
  fun i s _ h hbcd hblock a => (exec_onlyPlaces h).memRead_eq a (byte_notMem_writes _ i s hbcd hblock)

/-- Settles O39: both instructions store a short block at I, and the next fetch reads the memory that holds it. -/
theorem storeIsSeenByTheNextFetch : Obligations.StoreIsSeenByTheNextFetch := by
  intro x s hf
  refine ⟨fun hd => ⟨_, step_ldMemVx s hf hd, ?_⟩, fun hd => ⟨_, step_ldBVx s hf hd, ?_⟩⟩
  · have hlen := regsUpTo_length s x
    have hstored := fun (k : RegIdx) (hk : k ≤ x) =>
      fetchWord_afterStore_stored s _ (by omega) (regsUpTo_getElem? s hk)
    obtain ⟨hhi, hlo⟩ := fetchWord_afterStore_kept s (s.regsUpTo x)
    simp only [hlen, Nat.lt_succ_iff] at hhi hlo
    exact ⟨fun k hk => (hstored k hk).1, fun k hk => (hstored k hk).2, hhi, hlo⟩
  · refine ⟨fun k d hdigit => ?_, fetchWord_afterStore_kept s (bcdDigits (s.reg x))⟩
    rw [← bcdDigits_map_toNat, List.getElem?_map, Option.map_eq_some_iff] at hdigit
    obtain ⟨b, hb, rfl⟩ := hdigit
    exact fetchWord_afterStore_stored s _ (by simp [bcdDigits]) hb

end

section
/-! SUPPORT. The family of 30_encoding.md: two rows share a word only at CLS or RET and SYS, so the row that a word
selects gives its meaning; and for each format of R72 the fields and the encoder are inverse to each other. -/

namespace Sys2Proof

/-! ## Selecting a row (30_encoding.md R74, R75) -/

/-- Where the patterns of two rows agree on the bits both masks test, they are CLS or RET, which test every bit,
and SYS. -/
theorem eq_sys_of_patterns_agree : ∀ j k : Fin opcodeMap.length, j < k →
    opcodeMap[j].mask &&& opcodeMap[k].mask &&& (opcodeMap[j].pattern ^^^ opcodeMap[k].pattern) = 0 →
    k.val = 2 ∧ opcodeMap[j].mask = BitVec.allOnes 16 ∧
      (opcodeMap[j].pattern = 0x00E0 ∨ opcodeMap[j].pattern = 0x00EE) := by
  decide

/-- A word that selects a row and an earlier one is 0x00E0 or 0x00EE at row SYS. -/
theorem eq_sys_of_selects {j k : Nat} {r q : Row} {w : Word} (hjk : j < k) (hj : opcodeMap[j]? = some r)
    (hk : opcodeMap[k]? = some q) (hr : r.selects w = true) (hq : q.selects w = true) :
    k = 2 ∧ (w = 0x00E0 ∨ w = 0x00EE) := by
  obtain ⟨hjlt, rfl⟩ := List.getElem?_eq_some_iff.1 hj
  obtain ⟨hklt, rfl⟩ := List.getElem?_eq_some_iff.1 hk
  obtain ⟨hsys, hmask, hpattern⟩ := eq_sys_of_patterns_agree ⟨j, hjlt⟩ ⟨k, hklt⟩ hjk (patterns_agree hr hq)
  have hw : w &&& opcodeMap[j].mask = opcodeMap[j].pattern := beq_iff_eq.1 hr
  simp only [Fin.getElem_fin] at hmask hpattern
  rw [hmask, BitVec.and_allOnes] at hw
  exact ⟨hsys, hw ▸ hpattern⟩

section

variable {r : Row} {w : Word} (k : Nat)

/-- The row a word selects gives its meaning, except at the two words that CLS and RET take from SYS. -/
theorem decode_of_selects (hk : opcodeMap[k]? = some r) (hsys : k = 2 → w ≠ 0x00E0 ∧ w ≠ 0x00EE)
    (hw : r.selects w = true) : decode w = some (r.build w) := by
  obtain ⟨hlt, rfl⟩ := List.getElem?_eq_some_iff.1 hk
  refine List.findSome?_eq_some_iff.2 ⟨opcodeMap.take k, opcodeMap[k], opcodeMap.drop (k + 1), by simp,
    if_pos hw, fun q hq => if_neg fun hqw => ?_⟩
  obtain ⟨j, hj, rfl⟩ := List.mem_take_iff_getElem.1 hq
  obtain ⟨h2, hE⟩ := eq_sys_of_selects (by omega) (List.getElem?_eq_getElem _) hk hqw hw
  obtain ⟨hcls, hret⟩ := hsys h2
  exact hE.elim hcls hret

/-- `decode_of_selects` for the row written out, with its test as R74 writes it. -/
theorem decode_of_mask {p m : Word} {build : Word → Instr} (hk : opcodeMap[k]? = some ⟨p, m, build⟩)
    (hw : w &&& m = p) (hsys : k = 2 → w ≠ 0x00E0 ∧ w ≠ 0x00EE := by nofun) : decode w = some (build w) :=
  decode_of_selects k hk hsys (beq_iff_eq.2 hw)

end

/-! ## Decoding an encoded word, by format (30_encoding.md R71, R72)

`k` is the row's number; its operation digit is `c`, and `d` the fixed digits at the low end. -/

section

variable (k : Nat) {c d : Nat} {x y : RegIdx}

theorem decode_encAddr {nnn : Addr12} {f : Addr12 → Instr}
    (hk : opcodeMap[k]? = some ⟨BitVec.ofNat 16 (c * 4096), 0xF000#16, fun w => f (fieldNnn w)⟩)
    (hsys : k = 2 → encAddr c nnn ≠ 0x00E0 ∧ encAddr c nnn ≠ 0x00EE := by nofun) (hc : c < 16 := by decide) :
    decode (encAddr c nnn) = some (f nnn) := by
  have hw := toNat_encAddr c nnn hc
  have hlt := nnn.isLt
  have hnnn : fieldNnn (encAddr c nnn) = nnn := fieldNnn_eq (by omega)
  rw [decode_of_selects k hk hsys (by rw [selects_op _ c hc, decide_eq_true_eq]; omega)]
  simp only [hnnn]

theorem decode_encXkk {kk : Byte} {f : RegIdx → Byte → Instr}
    (hk : opcodeMap[k]? = some ⟨BitVec.ofNat 16 (c * 4096), 0xF000#16, fun w => f (fieldX w) (fieldKk w)⟩)
    (hk2 : k ≠ 2 := by decide) (hc : c < 16 := by decide) : decode (encXkk c x kk) = some (f x kk) := by
  have hw := toNat_encXkk c x kk hc
  have hlt := kk.isLt
  have hx : fieldX (encXkk c x kk) = x := fieldX_eq (by omega)
  have hkk : fieldKk (encXkk c x kk) = kk := fieldKk_eq (by omega)
  rw [decode_of_selects k hk (absurd · hk2) (by rw [selects_op _ c hc, decide_eq_true_eq]; omega)]
  simp only [hx, hkk]

theorem decode_encXyf {f : RegIdx → RegIdx → Instr}
    (hk : opcodeMap[k]? = some ⟨BitVec.ofNat 16 (c * 4096 + d), 0xF00F#16, fun w => f (fieldX w) (fieldY w)⟩)
    (hk2 : k ≠ 2 := by decide) (hc : c < 16 := by decide) (hd : d < 16 := by decide) :
    decode (encXyf c x y d) = some (f x y) := by
  have hw := toNat_encXyf c x y d hc hd
  have hx : fieldX (encXyf c x y d) = x := fieldX_eq (by omega)
  have hy : fieldY (encXyf c x y d) = y := fieldY_eq (by omega)
  rw [decode_of_selects k hk (absurd · hk2) (by rw [selects_opFn _ c d hc hd, decide_eq_true_eq]; omega)]
  simp only [hx, hy]

theorem decode_encXyn {n : Fin 16} {f : RegIdx → RegIdx → Fin 16 → Instr}
    (hk : opcodeMap[k]? =
      some ⟨BitVec.ofNat 16 (c * 4096), 0xF000#16, fun w => f (fieldX w) (fieldY w) (fieldN w)⟩)
    (hk2 : k ≠ 2 := by decide) (hc : c < 16 := by decide) : decode (encXyf c x y n.val) = some (f x y n) := by
  have hw := toNat_encXyf c x y n.val hc n.isLt
  have hx : fieldX (encXyf c x y n.val) = x := fieldX_eq (by omega)
  have hy : fieldY (encXyf c x y n.val) = y := fieldY_eq (by omega)
  have hn : fieldN (encXyf c x y n.val) = n := fieldN_eq (by omega)
  rw [decode_of_selects k hk (absurd · hk2) (by rw [selects_op _ c hc, decide_eq_true_eq]; omega)]
  simp only [hx, hy, hn]

theorem decode_encXff {f : RegIdx → Instr}
    (hk : opcodeMap[k]? = some ⟨BitVec.ofNat 16 (c * 4096 + d), 0xF0FF#16, fun w => f (fieldX w)⟩)
    (hk2 : k ≠ 2 := by decide) (hc : c < 16 := by decide) (hd : d < 256 := by decide) :
    decode (encXff c x d) = some (f x) := by
  have hw := toNat_encXff c x d hc hd
  have hx : fieldX (encXff c x d) = x := fieldX_eq (by omega)
  rw [decode_of_selects k hk (absurd · hk2) (by rw [selects_opByte _ c d hc hd, decide_eq_true_eq]; omega)]
  simp only [hx]

end

/-- The two instructions that are the meaning of no word (30_encoding.md R75). -/
theorem Instr.wellFormed_iff (i : Instr) : i.wellFormed = true ↔ i ≠ .sysAddr 0x0E0 ∧ i ≠ .sysAddr 0x0EE := by
  cases i <;> simp [Instr.wellFormed, sysAddressFree]

/-- A well-formed SYS is encoded as neither word of CLS and RET. -/
theorem encAddr_sys_ne {nnn : Addr12} (h : (Instr.sysAddr nnn).wellFormed = true) :
    encAddr 0 nnn ≠ 0x00E0 ∧ encAddr 0 nnn ≠ 0x00EE := by
  have hw := toNat_encAddr 0 nnn (by decide)
  simp only [Instr.wellFormed_iff, ne_eq, Instr.sysAddr.injEq, ← BitVec.toNat_inj] at h ⊢
  simpa [hw] using h

theorem decode_encode (i : Instr) (hi : i.wellFormed = true) : decode (encode i) = some i := by
  cases i with
  | cls => exact decode_of_mask 0 rfl rfl
  | ret => exact decode_of_mask 1 rfl rfl
  | sysAddr nnn => exact decode_encAddr 2 rfl fun _ => encAddr_sys_ne hi
  | jpAddr nnn => exact decode_encAddr 3 rfl
  | callAddr nnn => exact decode_encAddr 4 rfl
  | seVxKk x kk => exact decode_encXkk 5 rfl
  | sneVxKk x kk => exact decode_encXkk 6 rfl
  | seVxVy x y => exact decode_encXyf 7 rfl
  | ldVxKk x kk => exact decode_encXkk 8 rfl
  | addVxKk x kk => exact decode_encXkk 9 rfl
  | ldVxVy x y => exact decode_encXyf 10 rfl
  | orVxVy x y => exact decode_encXyf 11 rfl
  | andVxVy x y => exact decode_encXyf 12 rfl
  | xorVxVy x y => exact decode_encXyf 13 rfl
  | addVxVy x y => exact decode_encXyf 14 rfl
  | subVxVy x y => exact decode_encXyf 15 rfl
  | shrVx x y => exact decode_encXyf 16 rfl
  | subnVxVy x y => exact decode_encXyf 17 rfl
  | shlVx x y => exact decode_encXyf 18 rfl
  | sneVxVy x y => exact decode_encXyf 19 rfl
  | ldIAddr nnn => exact decode_encAddr 20 rfl
  | jpV0Addr nnn => exact decode_encAddr 21 rfl
  | rndVxKk x kk => exact decode_encXkk 22 rfl
  | drwVxVyN x y n => exact decode_encXyn 23 rfl
  | skpVx x => exact decode_encXff 24 rfl
  | sknpVx x => exact decode_encXff 25 rfl
  | ldVxDt x => exact decode_encXff 26 rfl
  | ldVxK x => exact decode_encXff 27 rfl
  | ldDtVx x => exact decode_encXff 28 rfl
  | ldStVx x => exact decode_encXff 29 rfl
  | addIVx x => exact decode_encXff 30 rfl
  | ldFVx x => exact decode_encXff 31 rfl
  | ldBVx x => exact decode_encXff 32 rfl
  | ldMemVx x => exact decode_encXff 33 rfl
  | ldVxMem x => exact decode_encXff 34 rfl

/-! ## Encoding a decoded word, by format -/

/-- Encoding what the row builds gives back every word that selects it: the fields and the row's fixed digits are
all of the word. -/
def Row.Lossless (r : Row) : Prop := ∀ w : Word, r.selects w = true → encode (r.build w) = w

section

variable (c d : Nat)

theorem lossless_addr (f : Addr12 → Instr) (hf : ∀ nnn, encode (f nnn) = encAddr c nnn := by exact fun _ => rfl)
    (hc : c < 16 := by decide) :
    Row.Lossless ⟨BitVec.ofNat 16 (c * 4096), 0xF000#16, fun w => f (fieldNnn w)⟩ := by
  intro w hw
  simp only [selects_op w c hc, decide_eq_true_eq] at hw
  apply BitVec.eq_of_toNat_eq
  rw [hf, toNat_encAddr c _ hc, fieldNnn_toNat]
  omega

theorem lossless_xkk (f : RegIdx → Byte → Instr)
    (hf : ∀ x kk, encode (f x kk) = encXkk c x kk := by exact fun _ _ => rfl) (hc : c < 16 := by decide) :
    Row.Lossless ⟨BitVec.ofNat 16 (c * 4096), 0xF000#16, fun w => f (fieldX w) (fieldKk w)⟩ := by
  intro w hw
  simp only [selects_op w c hc, decide_eq_true_eq] at hw
  apply BitVec.eq_of_toNat_eq
  rw [hf, toNat_encXkk c _ _ hc, fieldX_val, fieldKk_toNat]
  omega

theorem lossless_xyf (f : RegIdx → RegIdx → Instr)
    (hf : ∀ x y, encode (f x y) = encXyf c x y d := by exact fun _ _ => rfl)
    (hc : c < 16 := by decide) (hd : d < 16 := by decide) :
    Row.Lossless ⟨BitVec.ofNat 16 (c * 4096 + d), 0xF00F#16, fun w => f (fieldX w) (fieldY w)⟩ := by
  intro w hw
  simp only [selects_opFn w c d hc hd, decide_eq_true_eq] at hw
  apply BitVec.eq_of_toNat_eq
  rw [hf, toNat_encXyf c _ _ d hc hd, fieldX_val, fieldY_val]
  omega

theorem lossless_xyn (f : RegIdx → RegIdx → Fin 16 → Instr)
    (hf : ∀ x y n, encode (f x y n) = encXyf c x y n.val := by exact fun _ _ _ => rfl) (hc : c < 16 := by decide) :
    Row.Lossless ⟨BitVec.ofNat 16 (c * 4096), 0xF000#16, fun w => f (fieldX w) (fieldY w) (fieldN w)⟩ := by
  intro w hw
  simp only [selects_op w c hc, decide_eq_true_eq] at hw
  apply BitVec.eq_of_toNat_eq
  rw [hf, toNat_encXyf c _ _ _ hc (Fin.isLt _), fieldX_val, fieldY_val, fieldN_val]
  omega

theorem lossless_xff (f : RegIdx → Instr) (hf : ∀ x, encode (f x) = encXff c x d := by exact fun _ => rfl)
    (hc : c < 16 := by decide) (hd : d < 256 := by decide) :
    Row.Lossless ⟨BitVec.ofNat 16 (c * 4096 + d), 0xF0FF#16, fun w => f (fieldX w)⟩ := by
  intro w hw
  simp only [selects_opByte w c d hc hd, decide_eq_true_eq] at hw
  apply BitVec.eq_of_toNat_eq
  rw [hf, toNat_encXff c _ d hc hd, fieldX_val]
  omega

theorem lossless_exact (p : Word) (i : Instr) (hi : encode i = p := by rfl) :
    Row.Lossless ⟨p, 0xFFFF#16, fun _ => i⟩ := by
  intro w hw
  have hp : w &&& BitVec.allOnes 16 = p := beq_iff_eq.1 hw
  rw [hi, ← hp, BitVec.and_allOnes]

end

theorem opcodeMap_lossless : ∀ r ∈ opcodeMap, r.Lossless := by
  simp only [opcodeMap, rowsA, rowsB, rowsC, rowsD, List.forall_mem_append, List.forall_mem_cons]
  exact ⟨
    ⟨lossless_exact 0x00E0 .cls, lossless_exact 0x00EE .ret, lossless_addr 0x0 .sysAddr, lossless_addr 0x1 .jpAddr,
      lossless_addr 0x2 .callAddr, lossless_xkk 0x3 .seVxKk, lossless_xkk 0x4 .sneVxKk, lossless_xyf 0x5 0x0 .seVxVy,
      lossless_xkk 0x6 .ldVxKk, lossless_xkk 0x7 .addVxKk, nofun⟩,
    ⟨lossless_xyf 0x8 0x0 .ldVxVy, lossless_xyf 0x8 0x1 .orVxVy, lossless_xyf 0x8 0x2 .andVxVy,
      lossless_xyf 0x8 0x3 .xorVxVy, lossless_xyf 0x8 0x4 .addVxVy, lossless_xyf 0x8 0x5 .subVxVy,
      lossless_xyf 0x8 0x6 .shrVx, lossless_xyf 0x8 0x7 .subnVxVy, lossless_xyf 0x8 0xE .shlVx,
      lossless_xyf 0x9 0x0 .sneVxVy, nofun⟩,
    ⟨lossless_addr 0xA .ldIAddr, lossless_addr 0xB .jpV0Addr, lossless_xkk 0xC .rndVxKk, lossless_xyn 0xD .drwVxVyN,
      lossless_xff 0xE 0x9E .skpVx, lossless_xff 0xE 0xA1 .sknpVx, nofun⟩,
    ⟨lossless_xff 0xF 0x07 .ldVxDt, lossless_xff 0xF 0x0A .ldVxK, lossless_xff 0xF 0x15 .ldDtVx,
      lossless_xff 0xF 0x18 .ldStVx, lossless_xff 0xF 0x1E .addIVx, lossless_xff 0xF 0x29 .ldFVx,
      lossless_xff 0xF 0x33 .ldBVx, lossless_xff 0xF 0x55 .ldMemVx, lossless_xff 0xF 0x65 .ldVxMem, nofun⟩⟩

theorem encode_of_decode {w : Word} {i : Instr} (h : decode w = some i) : encode i = w := by
  obtain ⟨r, hr, hw, rfl⟩ := decode_some_row h
  exact opcodeMap_lossless r hr w hw

/-- No word decodes to SYS at an address of CLS or RET: the word would be theirs, and it decodes to them. -/
theorem wellFormed_of_decode {w : Word} {i : Instr} (h : decode w = some i) : i.wellFormed = true := by
  have hown : decode (encode i) = some i := by rw [encode_of_decode h, h]
  rw [Instr.wellFormed_iff]
  constructor <;> rintro rfl <;> exact absurd hown (by decide)

end Sys2Proof

open Sys2Proof

/-- Settles O5: each instruction's word selects the instruction's own row, and by format the fields read its operands
back. -/
theorem decodeOfEncode : Obligations.DecodeOfEncode := decode_encode

/-- Settles O6: every row is lossless, and what decodes is well-formed. -/
theorem encodeOfDecode : Obligations.EncodeOfDecode :=
  fun _ _ h => ⟨encode_of_decode h, wellFormed_of_decode h⟩

/-- Settles O3: only at SYS do the patterns of two rows agree on the bits both masks test. -/
theorem onlySysOverlapsEarlierRows : Obligations.OnlySysOverlapsEarlierRows :=
  ⟨rfl, fun _ _ _ _ _ => eq_sys_of_selects⟩

/-- Settles O1: the operands are the fields of the word, and the row it selects gives its meaning. -/
theorem decodeSelectsTheFirstMatchingRow : Obligations.DecodeSelectsTheFirstMatchingRow := by
  intro w x y n kk nnn hx hy hn hkk hnnn
  obtain rfl := fieldX_eq hx.symm
  obtain rfl := fieldY_eq hy.symm
  obtain rfl := fieldN_eq hn.symm
  obtain rfl := fieldKk_eq hkk.symm
  obtain rfl := fieldNnn_eq hnnn.symm
  have sys (hw : w &&& 0xF000 = 0x0000) (hcls : w ≠ 0x00E0) (hret : w ≠ 0x00EE) :=
    decode_of_mask 2 rfl hw fun _ => ⟨hcls, hret⟩
  exact ⟨decode_of_mask 0 rfl, decode_of_mask 1 rfl, sys,
    decode_of_mask 3 rfl, decode_of_mask 4 rfl, decode_of_mask 5 rfl, decode_of_mask 6 rfl, decode_of_mask 7 rfl,
    decode_of_mask 8 rfl, decode_of_mask 9 rfl, decode_of_mask 10 rfl, decode_of_mask 11 rfl, decode_of_mask 12 rfl,
    decode_of_mask 13 rfl, decode_of_mask 14 rfl, decode_of_mask 15 rfl, decode_of_mask 16 rfl, decode_of_mask 17 rfl,
    decode_of_mask 18 rfl, decode_of_mask 19 rfl, decode_of_mask 20 rfl, decode_of_mask 21 rfl, decode_of_mask 22 rfl,
    decode_of_mask 23 rfl, decode_of_mask 24 rfl, decode_of_mask 25 rfl, decode_of_mask 26 rfl, decode_of_mask 27 rfl,
    decode_of_mask 28 rfl, decode_of_mask 29 rfl, decode_of_mask 30 rfl, decode_of_mask 31 rfl, decode_of_mask 32 rfl,
    decode_of_mask 33 rfl, decode_of_mask 34 rfl⟩

/-- Settles O2: the operation digit says which rows are left, and under 8 the last digit selects one of them. -/
theorem unknownWordsAreTheFiveGroups : Obligations.UnknownWordsAreTheFiveGroups := by
  intro w
  have hop : w.toNat / 4096 < 16 := by have := w.isLt; omega
  rw [decode_eq]
  generalize w.toNat / 4096 = c at hop ⊢
  obtain rfl | hne := eq_or_ne c 8
  · have hlast : w.toNat % 16 < 16 := Nat.mod_lt _ (by decide)
    generalize w.toNat % 16 = d at hlast ⊢
    interval_cases d <;> simp
  · interval_cases c <;> simp [ite_eq_iff] at hne ⊢

/-- Settles O4, by evaluating the decoder. -/
theorem sampleWordsDecode : Obligations.SampleWordsDecode := by
  unfold Obligations.SampleWordsDecode
  decide

end

section
/-! SUPPORT. The family of 40_engine_cycle.md: the fetch, the two answers to an unknown word, the timers at the end
of a step, and the one state a step answers with. -/

namespace Sys2Proof.Machine

variable {s u : State}

/-! ## The unknown word (40_engine_cycle.md R104, 60_exceptions.md R231) -/

theorem step_of_unknown_lenient (hf : s.fault = .noFault) (hd : decode s.fetchWord = none)
    (hs : s.config.strictDecode = false) : step s = .next (s.advance.emitDiag s.pc s.fetchWord).endStep := by
  rw [step_of_unknown hf hd]
  simp [unknownOpcode, hs]

theorem step_of_unknown_strict (hf : s.fault = .noFault) (hd : decode s.fetchWord = none)
    (hs : s.config.strictDecode = true) :
    step s = .next (s.advance.raiseFault .nonCanonicalOpcode s.fetchWord) := by
  have hu : unknownOpcode s.fetchWord s.advance = s.advance.raiseFault .nonCanonicalOpcode s.fetchWord := if_pos hs
  rw [step_of_unknown hf hd, hu, State.endStep_faulted _ (by simp)]

/-- A diagnostic changes no place of the engine's state. -/
theorem emitDiag_onlyPlaces (s : State) (p w : Word) : OnlyPlaces [] s (s.emitDiag p w) :=
  ⟨fun q _ => by cases q <;> rfl, rfl⟩

/-- A step that executes nothing but the diagnostic moves PC and the timers. -/
theorem noOp_onlyPlaces (s : State) (p w : Word) :
    OnlyPlaces [.pc, .delayTimer, .soundTimer] s (s.advance.emitDiag p w).endStep := by
  have hfetch := (advance_frame s).1.mono (qs := [.pc, .delayTimer, .soundTimer]) (by simp)
  have hdiag := emitDiag_onlyPlaces s.advance p w
  have hend := (endStep_frame (s.advance.emitDiag p w)).1.mono (List.subset_cons_self .pc _)
  exact (hfetch.trans (hdiag.mono (List.nil_subset _))).trans hend

/-- Fault entry after the fetch takes PC back to p, so only the fault record differs from the start of the step. -/
theorem raiseFault_advance_frame (s : State) (c : FaultCode) (w : Word) :
    OnlyChanges [.faultCode, .faultPc, .faultOp] s (s.advance.raiseFault c w) := by
  have hpc : (s.advance.raiseFault c w).pc = s.pc := State.instrAddr_advance s
  refine .of_reads (fun p hp => ?_) rfl rfl rfl rfl
  cases p with
  | pc => exact congrArg BitVec.toNat hpc
  | faultCode | faultPc | faultOp => simp at hp
  | _ => rfl

/-! ## The end of a step (40_engine_cycle.md R106, 44_keypad_timers.md R197) -/

/-- The spec's "lowered by 1 while above zero" is the truncated subtraction of naturals. -/
theorem sub_one_eq_ite (n : Nat) : n - 1 = if n > 0 then n - 1 else 0 := by
  split <;> omega

theorem State.endStep_timers_toNat (hf : s.fault = .noFault) (hc : s.config.timerSource = .perStep) :
    s.endStep.dt.toNat = s.dt.toNat - 1 ∧ s.endStep.st.toNat = s.st.toNat - 1 := by
  rw [State.endStep_perStep s hf hc]
  exact ⟨timerDown_toNat s.dt, timerDown_toNat s.st⟩

/-! ## The step of any state -/

/-- A faulted engine stays where it is (40_engine_cycle.md R101). -/
theorem step_of_faulted (hf : s.Faulted) : step s = .next s := if_neg hf

/-- With `u` the state before the end of the step, the handler's or that of an unknown word, the step answers
`u.endStep`. -/
theorem step_of_executed (hf : s.fault = .noFault)
    (hi : ∀ i, decode s.fetchWord = some i → exec i s.advance = .next u)
    (hn : decode s.fetchWord = none → u = unknownOpcode s.fetchWord s.advance) :
    step s = .next u.endStep ∧ u.config = s.config := by
  cases hd : decode s.fetchWord with
  | some i => exact ⟨step_of_decoded hf hd (hi i hd), (exec_config (hi i hd)).trans s.advance_config⟩
  | none =>
    obtain rfl := hn hd
    exact ⟨step_of_unknown hf hd, unknownOpcode_config _ _⟩

end Sys2Proof.Machine

open Sys2Proof Sys2Proof.Machine

/-- Settles O9: the step answers `u.endStep`, and the three clauses are the branches of the end of the step. -/
theorem completedStepDecrementsTimersOnce : Obligations.CompletedStepDecrementsTimersOnce := by
  intro s u hf hi hn
  obtain ⟨hstep, hconfig⟩ := step_of_executed hf hi hn
  refine ⟨u.endStep, hstep, fun huf hper => ?_, fun hext => ?_, fun huf => ?_⟩
  · obtain ⟨hdt, hst⟩ := State.endStep_timers_toNat huf (hconfig ▸ hper)
    exact ⟨hdt.trans (sub_one_eq_ite _), hst.trans (sub_one_eq_ite _), endStep_frame u⟩
  · rw [State.endStep_external u (hconfig ▸ hext)]
    exact .refl _ u
  · rw [State.endStep_faulted u huf]
    exact .refl _ u

/-- Settles O10: without STRICT_DECODE the step is the fetch, the diagnostic and the end of the step; with it, the
fetch and fault entry, which the end of the step leaves alone. -/
theorem unknownOpcodeIsNoOpOrFault : Obligations.UnknownOpcodeIsNoOpOrFault := by
  intro s hf hd
  refine ⟨fun hs => ⟨_, step_of_unknown_lenient hf hd hs, ?_⟩, fun hs => ⟨_, step_of_unknown_strict hf hd hs, ?_⟩⟩
  · refine ⟨?_, by simp, State.endStep_timers_toNat (s := s.advance.emitDiag _ _) hf, fun hext => ?_,
      noOp_onlyPlaces s _ _, by simp, by simp⟩
    · rw [State.endStep_pc]
      exact BitVec.toNat_add s.pc 2
    · have hend := State.endStep_external (s.advance.emitDiag s.pc s.fetchWord) hext
      simp [hend]
  · exact ⟨rfl, State.instrAddr_advance s, rfl, raiseFault_advance_frame s _ _⟩

/-- Settles O11: the run by induction over the number of steps, each of which answers the same state. -/
theorem faultedEngineNeverMoves : Obligations.FaultedEngineNeverMoves := by
  intro s k hf
  obtain ⟨t, hrun, rfl⟩ := run_induction (· = s) (by rintro _ rfl; exact ⟨_, step_of_faulted hf, rfl⟩) k rfl
  exact ⟨hrun, if_neg hf⟩

/-- Settles O12: a faulted engine answers itself, an unknown word has its own state, and every instruction answers a
next state. -/
theorem everyStepAnswers : Obligations.EveryStepAnswers := by
  intro s
  by_cases hf : s.fault = .noFault
  · cases hd : decode s.fetchWord with
    | none => exact ⟨_, step_of_unknown hf hd⟩
    | some i =>
      obtain ⟨u, hu, -⟩ := exec_places s.advance i
      exact ⟨_, step_of_decoded hf hd hu⟩
  · exact ⟨s, step_of_faulted hf⟩

/-- Settles O7: the word is the two bytes that `memRead` reads mod 4096, and moving PC changes nothing else. -/
theorem fetchReadsBigEndianAndAdvances : Obligations.FetchReadsBigEndianAndAdvances := by
  intro s
  refine ⟨toNat_wordOfBytes _ _, ?_, advance_frame s⟩
  exact BitVec.toNat_add s.pc 2

/-- Settles O8, by the step of a decoded word. -/
theorem stepRunsTheDecodedInstruction : Obligations.StepRunsTheDecodedInstruction :=
  fun _ _ _ hf hd hu => step_of_decoded hf hd hu

end

section
/-! SUPPORT. The family of 41_control_flow.md: what CALL and RET do to the stack, what a skip does to PC, and the
frame of a step read off the frame of its handler. -/

namespace Sys2Proof.Machine

/-! ## Frames -/

section

variable {s u : State} {ps : List Place}

/-- A place that reads as before is not needed in a frame. -/
theorem OnlyChanges.drop {p : Place} (h : OnlyChanges (p :: ps) s u) (hp : u.debugRead p = s.debugRead p) :
    OnlyChanges ps s u := by
  obtain ⟨⟨hreads, hconfig⟩, hinputs⟩ := h
  refine ⟨⟨fun q hq => ?_, hconfig⟩, hinputs⟩
  by_cases hqp : q = p
  · rw [hqp, hp]
  · exact hreads q (List.not_mem_cons_of_ne_of_not_mem hqp hq)

/-- A whole step moves PC and the timers besides what its handler changes. -/
theorem OnlyChanges.of_handler (h : OnlyChanges ps s.advance u) :
    OnlyChanges (.pc :: (ps ++ [.delayTimer, .soundTimer])) s u.endStep :=
  (advance_frame s).comp (h.comp (endStep_frame u))

end

/-! ## Operands -/

theorem zextAddr_toNat (nnn : Addr12) : (zextAddr nnn).toNat = nnn.toNat :=
  BitVec.toNat_setWidth_of_le (by decide)

theorem zextByte_toNat (b : Byte) : (zextByte b).toNat = b.toNat :=
  BitVec.toNat_setWidth_of_le (by decide)

/-- `nnn + V0` is at most 0x0FFF + 0xFF, so the target of JP V0 never wraps (41_control_flow.md R124). -/
theorem zextAddr_add_zextByte_toNat (nnn : Addr12) (b : Byte) :
    (zextAddr nnn + zextByte b).toNat = nnn.toNat + b.toNat := by
  have hnnn := nnn.isLt
  have hb := b.isLt
  rw [BitVec.toNat_add, zextAddr_toNat, zextByte_toNat, Nat.mod_eq_of_lt (by omega)]

section

variable (s : State)

/-! ## The call stack (10_state.md R25, R26) -/

theorem State.push_slot {j : Fin 16} (hj : s.sp.val = j.val) (w : Word) : (s.push w).stack[j] = w := by
  simp [hj]

theorem State.push_sp_val {j : Fin 16} (hj : s.sp.val = j.val) (w : Word) : (s.push w).sp.val = s.sp.val + 1 :=
  Nat.mod_eq_of_lt (by omega)

theorem State.top_eq {j : Fin 16} (hj : s.sp.val = j.val + 1) : s.top = s.stack[j] := by
  simp [State.top, hj]

theorem State.pop_sp_val {j : Fin 16} (hj : s.sp.val = j.val + 1) : s.pop.sp.val = j.val := by
  rw [State.pop_sp, hj]
  exact Nat.mod_eq_of_lt (by omega)

/-! ## CALL and RET, a case each (41_control_flow.md R122, R123) -/

theorem exec_callAddr_free (nnn : Addr12) {j : Fin 16} (hj : s.sp.val = j.val) :
    exec (.callAddr nnn) s = .next ((s.push s.pc).setPc (zextAddr nnn)) :=
  if_neg fun h => absurd (hj.symm.trans (congrArg Fin.val h)) (Nat.ne_of_lt j.isLt)

theorem exec_callAddr_full (nnn : Addr12) (h : s.sp.val = 16) :
    exec (.callAddr nnn) s = .next (s.raiseFault .stackOverflow (encode (.callAddr nnn))) :=
  if_pos (Fin.ext h)

theorem exec_ret_nonempty {j : Fin 16} (hj : s.sp.val = j.val + 1) : exec .ret s = .next (s.pop.setPc s.top) :=
  if_neg fun h => absurd (hj.symm.trans (congrArg Fin.val h)) (Nat.succ_ne_zero _)

theorem exec_ret_empty (h : s.sp.val = 0) : exec .ret s = .next (s.raiseFault .stackUnderflow (encode .ret)) :=
  if_pos (Fin.ext h)

/-! ## Skips (41_control_flow.md R125 to R129) -/

theorem State.skipIf_pc_toNat (c : Bool) :
    (s.skipIf c).pc.toNat = if c then (s.pc.toNat + 2) % 65536 else s.pc.toNat := by
  cases c
  · rfl
  · exact BitVec.toNat_add s.pc 2

/-- A skip on equal bytes, as SE tests them. -/
theorem State.skipIf_beq_pc_toNat (a b : Byte) :
    (s.skipIf (a == b)).pc.toNat = if a.toNat = b.toNat then (s.pc.toNat + 2) % 65536 else s.pc.toNat := by
  simp only [State.skipIf_pc_toNat, beq_iff_eq, BitVec.toNat_inj]

/-- A skip on different bytes, as SNE tests them. -/
theorem State.skipIf_bne_pc_toNat (a b : Byte) :
    (s.skipIf (a != b)).pc.toNat = if a.toNat = b.toNat then s.pc.toNat else (s.pc.toNat + 2) % 65536 := by
  simp only [State.skipIf_pc_toNat, bne_iff_ne, BitVec.toNat_inj, ite_not]

end

end Sys2Proof.Machine

open Sys2Proof Sys2Proof.Machine

/-- Settles O24: below 16 the push and the jump, at 16 fault entry. -/
theorem callPushesAndJumpsOrOverflows : Obligations.CallPushesAndJumpsOrOverflows := by
  intro nnn s
  refine ⟨fun j hj => ⟨_, exec_callAddr_free s nnn hj, ?_⟩, fun hfull => ⟨_, exec_callAddr_full s nnn hfull, ?_⟩⟩
  · exact ⟨s.push_slot hj s.pc, s.push_sp_val hj s.pc, zextAddr_toNat nnn,
      (push_frame s j s.pc hj).comp (setPc_frame _ _)⟩
  · exact raiseFault_entry s _ _

/-- Settles O25: above 0 the slot below SP is popped into PC, at 0 fault entry with the word of RET. -/
theorem retPopsOrUnderflows : Obligations.RetPopsOrUnderflows := by
  intro s
  refine ⟨fun j hj => ⟨_, exec_ret_nonempty s hj, ?_⟩, fun hempty => ⟨_, exec_ret_empty s hempty, ?_⟩⟩
  · exact ⟨s.top_eq hj, s.pop_sp_val hj, (pop_frame s).comp (setPc_frame _ _)⟩
  · exact raiseFault_entry s _ _

/-- Settles O26: the step of CALL (O24) leaves p + 2 in the slot j below SP, and the step of RET (O25) takes it from
there; SP is in the frame of both but ends where it was. -/
theorem callThenRetReturns : Obligations.CallThenRetReturns := by
  intro s u nnn j hf hcall hj hu hret
  obtain ⟨c, hc, hslot, hcsp, -, hcframe⟩ := (callPushesAndJumpsOrOverflows nnn s.advance).1 j hj
  obtain rfl : c.endStep = u := by simpa [step_of_decoded hf hcall hc] using hu
  have hcf : c.endStep.fault = .noFault := by simpa [hcframe.fault_eq (by simp)] using hf
  have husp : c.endStep.advance.sp.val = j.val + 1 := by simpa [hj] using hcsp
  obtain ⟨r, hr, hrpc, hrsp, hrframe⟩ := (retPopsOrUnderflows c.endStep.advance).1 j husp
  have hpc : r.endStep.pc = s.pc + 2 := by simpa [hslot] using hrpc
  have hsp : r.endStep.sp = s.sp := Fin.ext (by simpa [hj] using hrsp)
  have hboth : OnlyChanges [.sp, .pc, .slot j, .delayTimer, .soundTimer] s r.endStep :=
    (hcframe.of_handler.comp hrframe.of_handler).mono (by simp)
  exact ⟨r.endStep, step_of_decoded hcf hret hr, hpc ▸ BitVec.toNat_add s.pc 2, hsp,
    hboth.drop (congrArg Fin.val hsp)⟩

/-- Settles O22: SYS answers the state it is given. -/
theorem sysIsANoOp : Obligations.SysIsANoOp :=
  fun _ s => ⟨s, rfl, .refl [] s⟩

/-- Settles O23: both jumps write PC only, and the sum of JP V0 fits in 16 bits. -/
theorem jumpsWritePc : Obligations.JumpsWritePc :=
  fun nnn s => ⟨⟨_, rfl, zextAddr_toNat nnn, setPc_frame s _⟩,
    ⟨_, rfl, zextAddr_add_zextByte_toNat nnn (s.reg 0), setPc_frame s _⟩⟩

/-- Settles O27: SE skips on equal bytes, SNE on different ones. -/
theorem skipsMovePcExactlyOnTheirCondition : Obligations.SkipsMovePcExactlyOnTheirCondition := by
  intro x y kk s
  refine ⟨⟨_, rfl, skipIf_frame s _, ?seKk⟩, ⟨_, rfl, skipIf_frame s _, ?sneKk⟩,
    ⟨_, rfl, skipIf_frame s _, ?seVy⟩, ⟨_, rfl, skipIf_frame s _, ?sneVy⟩⟩
  case seKk => exact s.skipIf_beq_pc_toNat (s.reg x) kk
  case sneKk => exact s.skipIf_bne_pc_toNat (s.reg x) kk
  case seVy => exact s.skipIf_beq_pc_toNat (s.reg x) (s.reg y)
  case sneVy => exact s.skipIf_bne_pc_toNat (s.reg x) (s.reg y)

end

section
/-! SUPPORT. The family of 42_alu.md: the flags as numbers, the bytes of the arithmetic as numbers, and what the two
ways of writing a result leave in V[x] and in VF. -/

namespace Sys2Proof.Machine

/-! ## Flags (10_state.md R34) -/

theorem flagByte_toNat (b : Bool) : (flagByte b).toNat = b.toNat := by
  cases b <;> rfl

theorem flagByte_decide_toNat (p : Prop) [Decidable p] : (flagByte (decide p)).toNat = if p then 1 else 0 :=
  (flagByte_toNat _).trans (Bool.cond_decide ..)

section

variable (a b : Byte)

theorem carryFlag_toNat : (carryFlag a b).toNat = if a.toNat + b.toNat > 255 then 1 else 0 :=
  flagByte_decide_toNat _

theorem notBorrowFlag_toNat : (notBorrowFlag a b).toNat = if a.toNat ≥ b.toNat then 1 else 0 :=
  flagByte_decide_toNat _

theorem shiftedOutLow_toNat : (shiftedOutLow a).toNat = a.toNat % 2 := by
  rw [shiftedOutLow, flagByte_toNat, BitVec.getLsbD, Nat.toNat_testBit, pow_zero, Nat.div_one]

/-- A byte is below 256, so nothing stands above its bit 7. -/
theorem shiftedOutHigh_toNat : (shiftedOutHigh a).toNat = a.toNat / 128 := by
  have ha := a.isLt
  rw [shiftedOutHigh, flagByte_toNat, BitVec.getLsbD, Nat.toNat_testBit]
  omega

/-! ## Results (42_alu.md R140) -/

/-- The spec's difference, which adds 256 before it subtracts. -/
theorem byte_sub_toNat : (a - b).toNat = (a.toNat + 256 - b.toNat) % 256 := by
  have hb := b.isLt
  rw [BitVec.toNat_sub]
  omega

theorem byte_shiftRight_one_toNat : (a >>> 1).toNat = a.toNat / 2 :=
  (BitVec.toNat_ushiftRight ..).trans (Nat.shiftRight_eq_div_pow ..)

theorem byte_shiftLeft_one_toNat : (a <<< 1).toNat = a.toNat * 2 % 256 := by
  rw [BitVec.toNat_shiftLeft, Nat.shiftLeft_eq]

end

section

variable (s : State)

/-! ## Writing the result (40_engine_cycle.md R108) -/

/-- The numbers a flag writer leaves in V[x] and VF, and its frame: V[x] is written last, so VF keeps the flag just
where x is not 15. -/
theorem setFlagThenReg_result {g b : Byte} {flag val : Nat} (x : RegIdx) (hb : b.toNat = val) (hg : g.toNat = flag) :
    ((s.setFlagThenReg g x b).reg x).toNat = val ∧
      (x ≠ 15 → ((s.setFlagThenReg g x b).reg 15).toNat = flag) ∧
      OnlyChanges [.reg x, .reg 15] s (s.setFlagThenReg g x b) := by
  refine ⟨?_, fun hx => ?_, setFlagThenReg_frame s g x b⟩
  · rw [State.reg_setFlagThenReg, if_pos rfl, hb]
  · rw [State.reg_setFlagThenReg, if_neg hx.symm, if_pos rfl, hg]

/-- The oldest byte supplied is the random byte of the step (42_alu.md R153, log entry 2). -/
theorem State.rnd_of_supplied {b : Byte} {q : List Byte} (hq : s.rndQueue = b :: q) : s.rnd = b := by
  rw [State.rnd, hq]

end

end Sys2Proof.Machine

open Sys2Proof Sys2Proof.Machine

/-- Settles O28: each is one register write. -/
theorem loadsAndAddImmediateWriteOnlyVx : Obligations.LoadsAndAddImmediateWriteOnlyVx := by
  intro x y kk s
  refine ⟨⟨_, rfl, ?ldKk, setReg_frame s x _⟩, ⟨_, rfl, ?addKk, setReg_frame s x _⟩,
    ⟨_, rfl, ?ldVy, setReg_frame s x _⟩⟩
  case ldKk => exact s.reg_setReg_self x kk
  case addKk => rw [State.reg_setReg_self, BitVec.toNat_add]
  case ldVy => exact s.reg_setReg_self x (s.reg y)

/-- Settles O29: each is one register write, of the byte that the operation on bit vectors makes bit by bit. -/
theorem logicWorksBitByBit : Obligations.LogicWorksBitByBit := by
  intro x y s
  refine ⟨⟨_, rfl, setReg_frame s x _, fun b _ => ?or⟩, ⟨_, rfl, setReg_frame s x _, fun b _ => ?and⟩,
    ⟨_, rfl, setReg_frame s x _, fun b _ => ?xor⟩⟩
  case or => rw [State.reg_setReg_self, BitVec.getLsbD_or]
  case and => rw [State.reg_setReg_self, BitVec.getLsbD_and]
  case xor => rw [State.reg_setReg_self, BitVec.getLsbD_xor]

/-- Settles O30, by what a flag writer leaves. -/
theorem addRegistersSetsSumAndCarry : Obligations.AddRegistersSetsSumAndCarry :=
  fun x _ s => ⟨_, rfl, setFlagThenReg_result s x (BitVec.toNat_add ..) (carryFlag_toNat ..)⟩

/-- Settles O31: SUBN is SUB with the operands exchanged. -/
theorem subtractionsSetDifferenceAndNotBorrow : Obligations.SubtractionsSetDifferenceAndNotBorrow :=
  fun x _ s =>
    ⟨⟨_, rfl, setFlagThenReg_result s x (byte_sub_toNat ..) (notBorrowFlag_toNat ..)⟩,
      ⟨_, rfl, setFlagThenReg_result s x (byte_sub_toNat ..) (notBorrowFlag_toNat ..)⟩⟩

/-- Settles O32, by what a flag writer leaves. -/
theorem shiftsMoveOneBitIntoVf : Obligations.ShiftsMoveOneBitIntoVf :=
  fun x _ s =>
    ⟨⟨_, rfl, setFlagThenReg_result s x (byte_shiftRight_one_toNat _) (shiftedOutLow_toNat _)⟩,
      ⟨_, rfl, setFlagThenReg_result s x (byte_shiftLeft_one_toNat _) (shiftedOutHigh_toNat _)⟩⟩

/-- Settles O33: V[x] is written after the random byte is taken; a bit of `rnd AND kk` is a bit of both, and a supplied
byte is `rnd` itself. -/
theorem rndMasksTheRandomByte : Obligations.RndMasksTheRandomByte := by
  intro x kk s
  obtain ⟨hexec, hplaces⟩ := exec_rnd s x kk
  have hreg : (s.rndTaken.setReg x (s.rnd &&& kk)).reg x = s.rnd &&& kk := State.reg_setReg_self _ x _
  refine ⟨⟨_, hexec, hplaces, rfl, rfl, rfl, hreg, fun b hb => ?mask⟩,
    fun b q hq => ⟨_, hexec, ?queue, fun k => ?bits⟩⟩
  case mask =>
    rw [hreg, BitVec.getLsbD_and, Bool.and_eq_true] at hb
    exact hb.2
  case queue => simp [hq]
  case bits => rw [hreg, s.rnd_of_supplied hq, BitVec.getLsbD_and]

end

section
/-! SUPPORT. The family of 43_index_memory.md: the new values of I as numbers, and what is read back at I + k after a
block is stored at I. -/

namespace Sys2Proof.Machine

/-! ## The index register (43_index_memory.md R171, R172) -/

theorem add_zextByte_toNat (w : Word) (b : Byte) : (w + zextByte b).toNat = (w.toNat + b.toNat) % 65536 := by
  rw [BitVec.toNat_add, zextByte_toNat]

/-- Five times a byte is at most 1275, so the font address of an unmasked V[x] never wraps. -/
theorem zextByte_mul_five_toNat (b : Byte) : (zextByte b * 5).toNat = b.toNat * 5 := by
  have hfive : (5 : Word).toNat = 5 := rfl
  have hb := b.isLt
  rw [BitVec.toNat_mul, zextByte_toNat, hfive, Nat.mod_eq_of_lt (by omega)]

/-! ## A block stored at I, read back (43_index_memory.md R173, R174) -/

section

variable (s : State)

/-- The digits of V[x] are what is read at I, I + 1 and I + 2, as numbers. -/
theorem memRead_storeBcd_toNat {k d : Nat} (b : Byte)
    (hd : [b.toNat / 100, b.toNat / 10 % 10, b.toNat % 10][k]? = some d) :
    ((s.storeBytes (s.indexed 0) (bcdDigits b)).memRead (s.indexed k)).toNat = d := by
  rw [← bcdDigits_map_toNat, List.getElem?_map, Option.map_eq_some_iff] at hd
  obtain ⟨digit, hdigit, rfl⟩ := hd
  rw [s.memRead_storeAtIndex _ (by simp [bcdDigits]) hdigit rfl]

theorem memRead_storeRegs {x k : RegIdx} (hk : k ≤ x) :
    (s.storeBytes (s.indexed 0) (s.regsUpTo x)).memRead (s.indexed k.val) = s.reg k := by
  have hlen := regsUpTo_length s x
  exact s.memRead_storeAtIndex _ (by omega) (regsUpTo_getElem? s hk) rfl

theorem index_notMem_block (n : Nat) : Place.index ∉ s.block n := by
  simp [State.block]

end

end Sys2Proof.Machine

open Sys2Proof Sys2Proof.Machine

/-- Settles O34: each is one write of I. -/
theorem indexInstructionsWriteI : Obligations.IndexInstructionsWriteI := by
  intro x nnn s
  refine ⟨⟨_, rfl, ?ldI, setIndex_frame s _⟩, ⟨_, rfl, ?addI, setIndex_frame s _⟩, ⟨_, rfl, ?ldF, setIndex_frame s _⟩⟩
  case ldI => exact zextAddr_toNat nnn
  case addI => exact add_zextByte_toNat s.i (s.reg x)
  case ldF => exact zextByte_mul_five_toNat (s.reg x)

/-- Settles O35: the three digits are one block stored at I. -/
theorem bcdStoresThreeDigits : Obligations.BcdStoresThreeDigits := by
  intro x s
  refine ⟨_, rfl, memRead_storeBcd_toNat s (k := 0) _ rfl, memRead_storeBcd_toNat s (k := 1) _ rfl,
    memRead_storeBcd_toNat s (k := 2) _ rfl, storeAtIndex_frame s (bcdDigits (s.reg x)), fun a ha => ?_⟩
  exact s.memRead_storeAtIndex_of_ne (bcdDigits (s.reg x)) fun k hk => (ha k hk).symm

/-- Settles O36: V0..Vx are one block of x + 1 bytes stored at I. -/
theorem storeRegistersWritesTheBlock : Obligations.StoreRegistersWritesTheBlock := by
  intro x s
  have hlen := regsUpTo_length s x
  refine ⟨_, rfl, fun k hk => memRead_storeRegs s hk, hlen ▸ storeAtIndex_frame s (s.regsUpTo x), fun a ha => ?_⟩
  exact s.memRead_storeAtIndex_of_ne (s.regsUpTo x) fun k hk => (ha k (by omega)).symm

/-- Settles O37: a register up to x is read from its byte, and no other place changes. -/
theorem loadRegistersReadsTheBlock : Obligations.LoadRegistersReadsTheBlock := by
  intro x s
  refine ⟨_, rfl, fun k hk => ?_, loadRegs_frame s (s.indexed 0) x⟩
  rw [State.reg_loadRegs, if_pos hk]
  rfl

/-- Settles O38: the load (O37) reads each register's byte where the store (O36) left it, as the store keeps I. -/
theorem blockStoreThenLoadRestores : Obligations.BlockStoreThenLoadRestores := by
  intro x s t u hstore hmem hconfig hi
  obtain ⟨t', ht', hstored, hframe, -⟩ := storeRegistersWritesTheBlock x s
  obtain rfl : t' = t := by simpa [ht'] using hstore
  obtain ⟨r, hload, hloaded, -⟩ := loadRegistersReadsTheBlock x u
  have hindex : u.i = s.i := hi.trans (hframe.index_eq (index_notMem_block s _))
  refine ⟨r, hload, fun k hk => ?_⟩
  calc r.reg k = u.memRead (u.i.toNat + k.val) := hloaded k hk
    _ = t'.memRead (s.i.toNat + k.val) := by rw [State.memRead_congr hmem hconfig, hindex]
    _ = s.reg k := hstored k hk

end

section
/-! SUPPORT. The family of 44_keypad_timers.md: the key a register names, the least pressed key, and the states that
SKP, SKNP, LD Vx,K and the timer loads answer; then the step of an engine that is blocked on a key. -/

namespace Sys2Proof.Machine

/-! ## The key V[x] names (44_keypad_timers.md R190) -/

theorem keyIndex_some {o : KeyOor} {b : Byte} {k : KeyIdx} (hk : k.val = b.toNat % 16)
    (h : b.toNat ≤ 15 ∨ o = .lowNibble) : keyIndex o b = some k := by
  have hlow : Fin.ofNat 16 b.toNat = k := Fin.ext hk.symm
  unfold keyIndex
  obtain hle | rfl := h
  · rw [if_pos hle, hlow]
  · rw [hlow, ite_self]

/-! ## The least pressed key (44_keypad_timers.md R194) -/

theorem firstPressed_some {s : State} {j : KeyIdx} (hj : s.keys[j] = true)
    (hleast : ∀ k : KeyIdx, k < j → s.keys[k] = false) : s.firstPressed = some j := by
  refine List.find?_eq_some_iff_getElem.2 ⟨hj, j.val, by simp, by simp, fun k hk => ?_⟩
  simpa using hleast ⟨k, by omega⟩ hk

/-! ## The end of a step, and the sound output (44_keypad_timers.md R197, R198, 10_state.md R42) -/

theorem State.reg_endStep (s : State) (x : RegIdx) : s.endStep.reg x = s.reg x :=
  State.reg_congr s.endStep_v x

/-- What the end of a step that completes leaves in DT, under each TIMER_SOURCE. -/
theorem State.endStep_dt_by_source (s : State) (hf : s.fault = .noFault) :
    (s.config.timerSource = .perStep → s.endStep.dt.toNat = s.dt.toNat - 1) ∧
      (s.config.timerSource = .external → s.endStep.dt = s.dt) :=
  ⟨fun hper => (State.endStep_timers_toNat hf hper).1, fun hext => by rw [s.endStep_external hext]⟩

/-- What the end of a step that completes leaves in ST, under each TIMER_SOURCE. -/
theorem State.endStep_st_by_source (s : State) (hf : s.fault = .noFault) :
    (s.config.timerSource = .perStep → s.endStep.st.toNat = s.st.toNat - 1) ∧
      (s.config.timerSource = .external → s.endStep.st = s.st) :=
  ⟨fun hper => (State.endStep_timers_toNat hf hper).2, fun hext => by rw [s.endStep_external hext]⟩

theorem State.soundOn_iff (s : State) : s.soundOn = true ↔ s.st.toNat ≠ 0 := by
  rw [State.soundOn, bne_iff_ne, ne_eq, ← BitVec.toNat_inj]
  rfl

/-! ## SKP, SKNP and LD Vx,K, a case each (44_keypad_timers.md R191, R192, R194) -/

section

variable {s : State} {x : RegIdx} {k : KeyIdx}

theorem exec_skpVx_named (hk : keyIndex s.config.keyOor (s.reg x) = some k) :
    exec (.skpVx x) s = .next (s.skipIf s.keys[k]) := by
  simp only [exec, execSkpVx, hk]

theorem exec_skpVx_unnamed (hk : keyIndex s.config.keyOor (s.reg x) = none) :
    exec (.skpVx x) s = .next (s.raiseFault .keyIndexRange (encode (.skpVx x))) := by
  simp only [exec, execSkpVx, hk]

theorem exec_sknpVx_named (hk : keyIndex s.config.keyOor (s.reg x) = some k) :
    exec (.sknpVx x) s = .next (s.skipIf !s.keys[k]) := by
  simp only [exec, execSknpVx, hk]

theorem exec_sknpVx_unnamed (hk : keyIndex s.config.keyOor (s.reg x) = none) :
    exec (.sknpVx x) s = .next (s.raiseFault .keyIndexRange (encode (.sknpVx x))) := by
  simp only [exec, execSknpVx, hk]

theorem exec_ldVxK_pressed (hk : s.firstPressed = some k) :
    exec (.ldVxK x) s = .next (s.setReg x (BitVec.ofNat 8 k.val)) := by
  simp only [exec, execLdVxK, hk]

theorem exec_ldVxK_unpressed (hk : ∀ k : KeyIdx, s.keys[k] = false) :
    exec (.ldVxK x) s = .next (s.setPc s.instrAddr) := by
  simp only [exec, execLdVxK, (firstPressed_none s).2 hk]

/-! ## Blocked on a key (60_exceptions.md R248) -/

/-- Where PC and memory stay, so does the word the next step fetches. -/
theorem OnlyChanges.fetchWord_eq {t : State} {ps : List Place} (h : OnlyChanges ps s t) (hpc : Place.pc ∉ ps)
    (hmem : ∀ a, Place.byte a ∉ ps) : t.fetchWord = s.fetchWord := by
  rw [State.fetchWord, h.pc_eq hpc, h.memRead_eq _ (hmem _), h.memRead_eq _ (hmem _), State.fetchWord]

/-- The timers have no part in being blocked. -/
theorem State.BlockedOnKey.of_timers {t : State} (hs : s.BlockedOnKey)
    (h : OnlyChanges [.delayTimer, .soundTimer] s t) : t.BlockedOnKey := by
  obtain ⟨hf, ⟨x, hd⟩, hkeys⟩ := hs
  refine ⟨(h.fault_eq (by simp)).trans hf, ⟨x, ?_⟩, fun k => (h.key_eq k (by simp)).trans (hkeys k)⟩
  rw [h.fetchWord_eq (by simp) (by simp), hd]

/-- LD Vx,K takes PC back over the fetch, so the step of a blocked engine moves the timers alone. -/
theorem State.BlockedOnKey.step_answers (hs : s.BlockedOnKey) :
    ∃ t, step s = .next t ∧ OnlyChanges [.delayTimer, .soundTimer] s t := by
  obtain ⟨hf, ⟨x, hd⟩, hkeys⟩ := hs
  have hexec : exec (.ldVxK x) s.advance = .next (s.advance.setPc s.advance.instrAddr) := exec_ldVxK_unpressed hkeys
  have hframe : OnlyChanges [.pc, .delayTimer, .soundTimer] s (s.advance.setPc s.advance.instrAddr).endStep :=
    (setPc_frame s.advance _).of_handler.mono (by simp)
  exact ⟨_, step_of_decoded hf hd hexec, hframe.drop (by simp [State.debugRead])⟩

end

end Sys2Proof.Machine

open Sys2Proof Sys2Proof.Machine

/-- Settles O40: where V[x] names the key k, the level of k decides the skip; where it names none, fault entry. -/
theorem keySkipsTestTheNamedKey : Obligations.KeySkipsTestTheNamedKey := by
  intro x k s hk
  refine ⟨fun h => ?_, fun hx ho => ?_⟩
  · have hnamed := keyIndex_some hk h
    refine ⟨⟨_, exec_skpVx_named hnamed, skipIf_frame s _, s.skipIf_pc_toNat _⟩,
      ⟨_, exec_sknpVx_named hnamed, skipIf_frame s _, ?_⟩⟩
    simpa using s.skipIf_pc_toNat !s.keys[k]
  · have hnone := (keyIndex_none s.config.keyOor (s.reg x)).2 ⟨ho, hx⟩
    exact ⟨⟨_, exec_skpVx_unnamed hnone, raiseFault_entry s _ _⟩,
      ⟨_, exec_sknpVx_unnamed hnone, raiseFault_entry s _ _⟩⟩

/-- Settles O42: being blocked depends on nothing that the step of a blocked engine moves. -/
theorem keyWaitNeverEndsWithoutAKey : Obligations.KeyWaitNeverEndsWithoutAKey := by
  intro s k hs
  refine run_induction (fun t => t.BlockedOnKey ∧ OnlyChanges [.delayTimer, .soundTimer] s t) ?_ k ⟨hs, .refl _ s⟩
  rintro t ⟨ht, hframe⟩
  obtain ⟨u, hstep, htimers⟩ := ht.step_answers
  exact ⟨u, hstep, ht.of_timers htimers, hframe.trans htimers⟩

/-- Settles O43: each handler is one write, and the step is that write followed by the end of the step. -/
theorem timerLoadsReadAndWriteTheTimers : Obligations.TimerLoadsReadAndWriteTheTimers := by
  intro x s
  refine ⟨⟨_, rfl, s.reg_setReg_self x s.dt, setReg_frame s x _⟩, ⟨_, rfl, rfl, setDt_frame s _⟩,
    ⟨_, rfl, rfl, setSt_frame s _⟩, fun hf hd => ⟨_, step_of_decoded hf hd rfl, ?readDt⟩,
    fun hf hd => ⟨_, step_of_decoded hf hd rfl, ?writeDt⟩, fun hf hd => ⟨_, step_of_decoded hf hd rfl, ?writeSt⟩⟩
  case readDt =>
    refine ⟨?_, State.endStep_dt_by_source (s.advance.setReg x s.dt) hf⟩
    rw [State.reg_endStep, State.reg_setReg_self]
    rfl
  case writeDt => exact State.endStep_dt_by_source { s.advance with dt := s.reg x } hf
  case writeSt =>
    obtain ⟨hper, hext⟩ := State.endStep_st_by_source { s.advance with st := s.reg x } hf
    exact ⟨hper, hext, State.soundOn_iff _⟩

/-- Settles O41: the scan finds the least pressed key, or none. -/
theorem keyWaitTakesLeastPressedOrRetries : Obligations.KeyWaitTakesLeastPressedOrRetries := by
  intro x s
  refine ⟨fun j hj hleast => ⟨_, exec_ldVxK_pressed (firstPressed_some hj hleast), ?_, setReg_frame s x _⟩,
    fun hnone => ⟨_, exec_ldVxK_unpressed hnone, rfl, setPc_frame s _⟩⟩
  rw [State.reg_setReg_self, BitVec.toNat_ofNat]
  exact Nat.mod_eq_of_lt (by omega)

/-- Settles O45: a tick is one timer decrement, and nothing on a faulted engine. -/
theorem tickLowersTheTimers : Obligations.TickLowersTheTimers := by
  intro s hext
  refine ⟨s.tick, if_pos hext, fun hf => ?_, fun hf => ?_⟩
  · rw [State.tick, if_pos hf]
    exact ⟨timerDown_toNat s.dt, timerDown_toNat s.st, timerDecrement_frame s⟩
  · rw [State.tick, if_neg hf]
    exact .refl [] s

end

section
/-! SUPPORT. The family of 45_display.md: which instruction reaches a pixel, read off `writes`; then the state a DRW
that completes leaves, and what a second DRW does to it. -/

namespace Sys2Proof.Machine

/-! ## The pixels (10_state.md R31) -/

theorem pixel_mem_writes {px : Fin 64} {py : Fin 32} {i : Instr} {s : State} (h : Place.pixel px py ∈ writes i s) :
    i = .cls ∨ ∃ x y n, i = .drwVxVyN x y n := by
  cases i with
  | cls => exact .inl rfl
  | drwVxVyN x y n => exact .inr ⟨x, y, n, rfl⟩
  | callAddr nnn => by_cases hsp : s.sp = 16 <;> simp [writes, hsp, faultPlaces] at h
  | ret | skpVx x | sknpVx x => simp [writes, faultPlaces] at h
  | ldBVx x | ldMemVx x => simp [writes, State.block] at h
  | ldVxMem x => simp [writes, regsTo] at h
  | _ => simp [writes] at h

/-- D[q] is the pixel (q mod 64, q div 64) (45_display.md R210, R215). -/
theorem State.getPixel_index (s : State) (px : Fin 64) (py : Fin 32) :
    s.getPixel (px.val + 64 * py.val) = some (s.pixel px py) := by
  have hq : px.val + 64 * py.val < 2048 := by omega
  have hx : Fin.ofNat 64 (px.val + 64 * py.val) = px := Fin.ext (by rw [Fin.val_ofNat]; omega)
  have hy : Fin.ofNat 32 ((px.val + 64 * py.val) / 64) = py := Fin.ext (by rw [Fin.val_ofNat]; omega)
  rw [State.getPixel, if_pos hq, hx, hy]

/-! ## DRW, a case each (45_display.md R212, R214) -/

/-- The state a DRW that completes leaves: the sprite's pixels flipped, then the collision in VF. -/
def State.drawn (s : State) (x y : RegIdx) (n : Fin 16) : State :=
  (s.flipPixels false (s.spritePixels x y n.val)).2.setReg 15
    (collisionFlag (s.flipPixels false (s.spritePixels x y n.val)).1)

/-- DRW raises DrawEdge (60_exceptions.md R235). -/
def State.DrawsOffEdge (s : State) (x y : RegIdx) (n : Fin 16) : Prop :=
  s.config.drwEdge = .fault ∧ s.spriteOffScreen x y n.val = true

variable {s : State} {x y : RegIdx} {n : Fin 16}

theorem exec_drw_offEdge (h : s.DrawsOffEdge x y n) :
    exec (.drwVxVyN x y n) s = .next (s.raiseFault .drawEdge (encode (.drwVxVyN x y n))) := if_pos h

theorem exec_drw_drawn (h : ¬ s.DrawsOffEdge x y n) : exec (.drwVxVyN x y n) s = .next (s.drawn x y n) := if_neg h

/-- A DRW that leaves the engine unfaulted has drawn. -/
theorem drawn_of_exec_drw {t : State} (h : exec (.drwVxVyN x y n) s = .next t) (ht : t.fault = .noFault) :
    ¬ s.DrawsOffEdge x y n ∧ t = s.drawn x y n := by
  by_cases hedge : s.DrawsOffEdge x y n
  · obtain rfl := Host.Outcome.next.inj ((exec_drw_offEdge hedge).symm.trans h)
    cases ht
  · exact ⟨hedge, (Host.Outcome.next.inj ((exec_drw_drawn hedge).symm.trans h)).symm⟩

/-! ## The drawn state -/

section

variable (s x y n)

theorem spritePixels_nodup : (s.spritePixels x y n.val).Nodup :=
  s.nodup_spritePixels x y n.val (by omega)

theorem State.pixel_drawn (px : Fin 64) (py : Fin 32) :
    (s.drawn x y n).pixel px py = (s.pixel px py ^^ decide ((px, py) ∈ s.spritePixels x y n.val)) :=
  s.pixel_flipPixels false _ (spritePixels_nodup s x y n) px py

theorem State.vf_drawn :
    (s.drawn x y n).reg 15 = flagByte ((s.spritePixels x y n.val).any fun p => s.pixel p.1 p.2) := by
  rw [State.drawn, State.reg_setReg_self, State.hit_flipPixels s false _ (spritePixels_nodup s x y n), Bool.false_or,
    collisionFlag]

theorem drawn_frame : OnlyChanges (.reg 15 :: allPixels) s (s.drawn x y n) :=
  ((flipPixels_frame s false _).comp (setReg_frame _ 15 _)).mono (by simp)

theorem State.reg_drawn {z : RegIdx} (hz : z ≠ 15) : (s.drawn x y n).reg z = s.reg z :=
  (drawn_frame s x y n).reg_eq z (by simp [hz, reg_notMem_allPixels])

end

theorem State.vf_drawn_of_lit {px : Fin 64} {py : Fin 32} (hp : (px, py) ∈ s.spritePixels x y n.val)
    (hlit : s.pixel px py = true) : (s.drawn x y n).reg 15 = 1 := by
  rw [State.vf_drawn, List.any_eq_true.2 ⟨(px, py), hp, hlit⟩]
  rfl

theorem State.vf_drawn_of_unlit (h : ∀ px py, (px, py) ∈ s.spritePixels x y n.val → s.pixel px py = false) :
    (s.drawn x y n).reg 15 = 0 := by
  rw [State.vf_drawn, List.any_eq_false.2 fun p hp => by simp [h p.1 p.2 hp]]
  rfl

/-- Where the coordinates are not in VF, a second DRW finds the same sprite at the same place. -/
theorem State.sprite_drawn (hx : x ≠ 15) (hy : y ≠ 15) :
    (s.drawn x y n).spritePixels x y n.val = s.spritePixels x y n.val ∧
      ((s.drawn x y n).DrawsOffEdge x y n ↔ s.DrawsOffEdge x y n) := by
  have hm : (s.drawn x y n).mem = s.mem := by simp [State.drawn]
  have hc : (s.drawn x y n).config = s.config := by simp [State.drawn]
  have hi : (s.drawn x y n).i = s.i := by simp [State.drawn]
  have hrx := s.reg_drawn x y n hx
  have hry := s.reg_drawn x y n hy
  refine ⟨State.spritePixels_congr hm hc hi hrx hry n.val, ?_⟩
  rw [State.DrawsOffEdge, State.DrawsOffEdge, hc, State.spriteOffScreen_congr hm hc hi hrx hry]

end Sys2Proof.Machine

open Sys2Proof Sys2Proof.Machine

/-- Settles O47: the sprite's set bits and the pixels they land on are the model's `spriteBit` and `spritePixels`,
so the two clauses are DRW's two cases. -/
theorem drwXorsTheSprite : Obligations.DrwXorsTheSprite := by
  intro x y n s x0 y0 set lands hx0 hy0 hset hlands
  subst hx0 hy0
  have hland : ∀ px py, lands px py ↔ (px, py) ∈ s.spritePixels x y n.val := fun px py => by
    simp only [hlands, hset, State.mem_spritePixels]
    rfl
  have hedge : (s.config.drwEdge = .fault ∧
      ∃ r c, set r c ∧ ((s.reg x).toNat % 64 + c > 63 ∨ (s.reg y).toNat % 32 + r > 31)) ↔ s.DrawsOffEdge x y n := by
    simp only [hset, State.DrawsOffEdge, State.spriteOffScreen_iff]
    rfl
  rw [hedge]
  simp only [hland]
  refine ⟨fun h => ⟨_, exec_drw_offEdge h, raiseFault_entry s _ _⟩, fun h => ⟨_, exec_drw_drawn h, ?flipped, ?kept,
    fun ⟨px, py, hp, hlit⟩ => State.vf_drawn_of_lit hp hlit, State.vf_drawn_of_unlit, drawn_frame s x y n⟩⟩
  case flipped =>
    intro px py hp
    rw [State.pixel_drawn, decide_eq_true hp, Bool.xor_true]
  case kept =>
    intro px py hp
    rw [State.pixel_drawn, decide_eq_false hp, Bool.xor_false]

/-- Settles O16: a pixel is among the places of CLS and DRW only. -/
theorem onlyClsAndDrwChangePixels : Obligations.OnlyClsAndDrwChangePixels := by
  intro i s t h hcls hdrw px py
  refine bool_of_toNat ((exec_onlyPlaces h).1 (.pixel px py) fun hp => ?_)
  obtain rfl | ⟨x, y, n, rfl⟩ := pixel_mem_writes hp
  · exact hcls rfl
  · exact hdrw x y n rfl

/-- Settles O49: the second draw flips the pixels of the first, and a pixel the first lit is one of them. -/
theorem drawingTwiceRestoresTheDisplay : Obligations.DrawingTwiceRestoresTheDisplay := by
  intro x y n s t hx hy _ h ht
  obtain ⟨hedge, rfl⟩ := drawn_of_exec_drw h ht
  obtain ⟨hsame, hsameEdge⟩ := State.sprite_drawn (s := s) (n := n) hx hy
  refine ⟨_, exec_drw_drawn (mt hsameEdge.1 hedge), fun px py => ?_, fun ⟨px, py, hdark, hlit⟩ => ?_⟩
  · rw [State.pixel_drawn, hsame, State.pixel_drawn, Bool.xor_assoc, Bool.xor_self, Bool.xor_false]
  · refine State.vf_drawn_of_lit ?_ hlit
    rw [State.pixel_drawn, hdark, Bool.false_xor, decide_eq_true_iff] at hlit
    rwa [hsame]

/-- Settles O46: the handler of CLS writes the display only, every pixel 0. -/
theorem clsClearsEveryPixel : Obligations.ClsClearsEveryPixel :=
  fun s => ⟨s.clearDisplay, rfl, s.pixel_clearDisplay, display_frame s _⟩

/-- Settles O48: a sprite without rows has no set bit, so DRW neither faults nor flips a pixel. -/
theorem emptySpriteOnlyClearsVf : Obligations.EmptySpriteOnlyClearsVf := by
  intro x y s
  have hnoFault : ¬ s.DrawsOffEdge x y 0 := fun ⟨_, hoff⟩ => Bool.false_ne_true hoff
  have hdrawn : s.drawn x y 0 = s.setReg 15 0 := rfl
  exact ⟨_, hdrawn ▸ exec_drw_drawn hnoFault, s.reg_setReg_self 15 0, setReg_frame s 15 0⟩

/-- Settles O56: get_pixel by its index below 2048 and its bound, sound_on by ST. -/
theorem outputsReadTheState : Obligations.OutputsReadTheState :=
  fun s => ⟨s.getPixel_index, fun _ hq => if_neg (Nat.not_lt.2 hq), s.soundOn_iff⟩

end

section
/-! SUPPORT. The family of 60_exceptions.md: what a handler and a whole step do to the fault record, said once each;
that every step keeps memory canonical; and what a debug write needs of its place. -/

namespace Sys2Proof.Machine

section

variable {s t u : State} {i : Instr} {ps : List Place}

/-! ## The fault record (10_state.md R33) -/

/-- FAULT, FAULT_PC and FAULT_OP are in `t` as they are in `s`. -/
def SameRecord (s t : State) : Prop := t.fault = s.fault ∧ t.faultPc = s.faultPc ∧ t.faultOp = s.faultOp

theorem SameRecord.of_places (h : OnlyPlaces ps s t)
    (hps : ∀ p ∈ [Place.faultCode, .faultPc, .faultOp], p ∉ ps) : SameRecord s t :=
  ⟨FaultCode.code_injective (h.1 .faultCode (hps _ (by simp))),
    BitVec.eq_of_toNat_eq (h.1 .faultPc (hps _ (by simp))),
    BitVec.eq_of_toNat_eq (h.1 .faultOp (hps _ (by simp)))⟩

/-- Neither the fetch before a handler nor the end of the step after it writes the fault record. -/
theorem SameRecord.of_handler (h : SameRecord s.advance u) : SameRecord s u.endStep := by
  simpa [SameRecord] using h

/-! ## Handlers (60_exceptions.md R230, R232 to R235) -/

/-- Under its condition an instruction does exactly fault entry, with its own code and its own word. -/
theorem exec_of_faultOf_ne (h : faultOf i s ≠ .noFault) :
    exec i s = .next (s.raiseFault (faultOf i s) (encode i)) := by
  cases i with
  | callAddr nnn =>
    have hfull : s.sp = 16 := by simpa [faultOf] using h
    rw [faultOf, if_pos hfull]
    exact if_pos hfull
  | ret =>
    have hempty : s.sp = 0 := by simpa [faultOf] using h
    rw [faultOf, if_pos hempty]
    exact if_pos hempty
  | skpVx x | sknpVx x =>
    have hkey : s.config.keyOor = .fault ∧ 15 < (s.reg x).toNat := by simpa [faultOf] using h
    have hnone := (keyIndex_none s.config.keyOor (s.reg x)).2 hkey
    rw [faultOf, if_pos hkey]
    simp only [exec, execSkpVx, execSknpVx, hnone]
  | drwVxVyN x y n =>
    have hedge : s.config.drwEdge = .fault ∧ s.spriteOffScreen x y n.val = true := by simpa [faultOf] using h
    rw [faultOf, if_pos hedge]
    exact exec_drw_offEdge hedge
  | _ => exact absurd rfl h

/-- Outside its condition an instruction leaves the fault record alone. -/
theorem exec_sameRecord (h : faultOf i s = .noFault) (ht : exec i s = .next t) : SameRecord s t := by
  cases i with
  | callAddr nnn =>
    have hfree : s.sp ≠ 16 := by simpa [faultOf] using h
    obtain rfl := Host.Outcome.next.inj ((if_neg hfree).symm.trans ht)
    exact ⟨rfl, rfl, rfl⟩
  | ret =>
    have hnonempty : s.sp ≠ 0 := by simpa [faultOf] using h
    obtain rfl := Host.Outcome.next.inj ((if_neg hnonempty).symm.trans ht)
    exact ⟨rfl, rfl, rfl⟩
  | skpVx x | sknpVx x =>
    have hkey : ¬ (s.config.keyOor = .fault ∧ 15 < (s.reg x).toNat) := by simpa [faultOf] using h
    obtain ⟨k, hk⟩ := Option.ne_none_iff_exists'.1 (mt (keyIndex_none _ _).1 hkey)
    simp only [exec, execSkpVx, execSknpVx, hk] at ht
    cases ht
    exact .of_places (skipIf_frame s _).1 (by simp)
  | drwVxVyN x y n =>
    have hedge : ¬ s.DrawsOffEdge x y n := by simpa [faultOf, State.DrawsOffEdge] using h
    obtain rfl := Host.Outcome.next.inj ((exec_drw_drawn hedge).symm.trans ht)
    exact .of_places (drawn_frame s x y n).1 (by simp [allPixels])
  | cls | ldBVx x | ldMemVx x | ldVxMem x =>
    exact .of_places (exec_onlyPlaces ht) (by simp [writes, allPixels, State.block, regsTo])
  | _ => exact .of_places (exec_onlyPlaces ht) (by simp [writes])

/-- NonCanonicalOpcode is no instruction's fault: it is raised for a word that decodes to none (R231). -/
theorem faultOf_ne_nonCanonicalOpcode (i : Instr) (s : State) : faultOf i s ≠ .nonCanonicalOpcode := by
  cases i with
  | callAddr _ | ret | skpVx _ | sknpVx _ | drwVxVyN _ _ _ => simp [faultOf, ite_eq_iff]
  | _ => exact FaultCode.noConfusion

/-! ## The whole step (60_exceptions.md R238) -/

/-- The step of an engine at `s`, not faulted, raises the fault `c`: the word at PC is unknown under STRICT_DECODE, or
it is an instruction under the condition of its fault. -/
inductive State.Raises (s : State) : FaultCode → Prop
  | unknown (hd : decode s.fetchWord = none) (hs : s.config.strictDecode = true) : s.Raises .nonCanonicalOpcode
  | instr {i : Instr} (hd : decode s.fetchWord = some i) (hi : faultOf i s ≠ .noFault) : s.Raises (faultOf i s)

/-- The state `s` with the fault record of fault `c` added: its own PC and its own word. -/
def State.withRecord (s : State) (c : FaultCode) : State :=
  { s with fault := c, faultPc := s.pc, faultOp := s.fetchWord }

/-- Fault entry takes PC back over the fetch. -/
theorem raiseFault_advance (s : State) (c : FaultCode) : s.advance.raiseFault c s.fetchWord = s.withRecord c := by
  rw [State.raiseFault, State.instrAddr_advance]
  rfl

/-- The fetch moves nothing that decides a fault. -/
theorem faultOf_advance (i : Instr) (s : State) : faultOf i s.advance = faultOf i s :=
  faultOf_congr i rfl rfl rfl rfl rfl

/-- A step leaves the fault record alone, or does nothing but add the record of the fault it raises. -/
theorem step_record_cases (hf : s.fault = .noFault) (h : step s = .next t) :
    SameRecord s t ∨ ∃ c, s.Raises c ∧ t = s.withRecord c := by
  obtain ⟨hne, -⟩ | ⟨-, u, rfl, ⟨hd, rfl⟩ | ⟨i, hd, hu⟩⟩ := step_cases h
  · exact absurd hf hne
  · by_cases hs : s.config.strictDecode = true
    · have hu : unknownOpcode s.fetchWord s.advance = s.withRecord .nonCanonicalOpcode :=
        (if_pos hs).trans (raiseFault_advance s _)
      exact .inr ⟨_, .unknown hd hs, (congrArg State.endStep hu).trans (State.endStep_faulted _ nofun)⟩
    · have hu : unknownOpcode s.fetchWord s.advance = s.advance.emitDiag _ s.fetchWord := if_neg hs
      exact .inl (.of_handler (hu ▸ ⟨rfl, rfl, rfl⟩))
  · by_cases hi : faultOf i s = .noFault
    · exact .inl (exec_sameRecord ((faultOf_advance i s).trans hi) hu).of_handler
    · have hraised := exec_of_faultOf_ne ((faultOf_advance i s).trans_ne hi)
      rw [faultOf_advance, encode_of_decode hd, raiseFault_advance] at hraised
      obtain rfl := Host.Outcome.next.inj (hu.symm.trans hraised)
      exact .inr ⟨_, .instr hd hi, State.endStep_faulted _ hi⟩

/-! ## The invariant -/

/-- Every step keeps memory in its canonical form. -/
theorem step_wf (h : step s = .next t) (hw : Memory.wf s.config.font s.mem) : Memory.wf t.config.font t.mem := by
  obtain ⟨-, rfl⟩ | ⟨-, u, rfl, hu⟩ := step_cases h
  · exact hw
  · rw [State.endStep_config, State.endStep_mem]
    obtain ⟨-, rfl⟩ | ⟨i, -, hu⟩ := hu
    · unfold unknownOpcode
      split <;> exact hw
    · exact exec_wf hu hw

theorem State.recordTrue_of_noFault (hf : s.fault = .noFault) :
    s.RecordTrue ↔ s.faultPc = 0 ∧ s.faultOp = 0 := by
  rw [State.RecordTrue, hf]

/-- A fault record added at its cause is true: what decides a fault is not in the record. -/
theorem State.Raises.recordTrue {c : FaultCode} (h : s.Raises c) : (s.withRecord c).RecordTrue := by
  cases h with
  | unknown hd hs => exact ⟨rfl, rfl, hs, hd⟩
  | @instr i hd hi =>
    have hcause : faultOf i (s.withRecord (faultOf i s)) = faultOf i s := faultOf_congr i rfl rfl rfl rfl rfl
    unfold State.RecordTrue
    split
    next hc => exact absurd hc hi
    next hc => exact absurd hc (faultOf_ne_nonCanonicalOpcode i s)
    all_goals exact ⟨rfl, rfl, i, hd, hcause⟩

theorem step_recordTrue (h : step s = .next t) (hs : s.RecordTrue) : t.RecordTrue := by
  by_cases hf : s.fault = .noFault
  · obtain ⟨hc, hp, ho⟩ | ⟨c, hraises, rfl⟩ := step_record_cases hf h
    · rw [State.recordTrue_of_noFault hf] at hs
      rwa [State.recordTrue_of_noFault (hc.trans hf), hp, ho]
    · exact hraises.recordTrue
  · obtain rfl := Host.Outcome.next.inj ((step_of_faulted hf).symm.trans h)
    exact hs

end

/-! ## The debug port (60_exceptions.md R247) -/

/-- `Place.size` is the bound: what is left to show of a place is that a fitting value reads back, in its frame. -/
theorem DebugWritable.of_set {s : State} {p : Place} {bound : Nat} {read : State → Nat} (hsize : p.size = some bound)
    (hset : ∀ n, n < bound → read (s.debugSet p n) = n ∧ OnlyChanges [p] s (s.debugSet p n)) :
    DebugWritable s p bound read := by
  intro n
  simp only [State.debugWrite, hsize]
  exact ⟨fun hn => ⟨_, if_pos hn, hset n hn⟩, fun hn => if_neg (Nat.not_lt.2 hn)⟩

section

variable (s : State)

theorem memWriteAt_frame (a : Fin 4096) (b : Byte) : OnlyChanges [.byte a] s (s.memWrite a.val b) := by
  have ha : Fin.ofNat 4096 a.val = a := Fin.ext (Nat.mod_eq_of_lt a.isLt)
  have hframe := memWrite_frame s a.val b
  rwa [ha] at hframe

theorem setSp_frame (k : Fin 17) : OnlyChanges [.sp] s { s with sp := k } := by
  refine .of_reads (fun p hp => ?_) rfl rfl rfl rfl
  cases p with
  | sp => simp at hp
  | _ => rfl

theorem setSlot_frame (j : Fin 16) (w : Word) : OnlyChanges [.slot j] s { s with stack := s.stack.set j w } := by
  refine .of_reads (fun p hp => ?_) rfl rfl rfl rfl
  cases p with
  | slot k =>
    have hjk : j.val ≠ k.val := fun e => hp (by simp [Fin.ext e])
    simp [State.debugRead, hjk]
  | _ => rfl

theorem flipPixel_frame (px : Fin 64) (py : Fin 32) : OnlyChanges [.pixel px py] s (s.flipPixel px py) := by
  refine .of_reads (fun p hp => ?_) rfl rfl rfl rfl
  cases p with
  | pixel qx qy =>
    have hne : ¬ (qx = px ∧ qy = py) := fun ⟨hx, hy⟩ => hp (by simp [hx, hy])
    simp [State.debugRead, State.pixel_flipPixel, hne]
  | _ => rfl

theorem toNat_beq_one {n : Nat} (hn : n < 2) : (n == 1).toNat = n := by
  interval_cases n <;> rfl

/-- A pixel is flipped exactly when it does not hold the value yet. -/
theorem pixel_debugSet (px : Fin 64) (py : Fin 32) (n : Nat) :
    (s.debugSet (.pixel px py) n).pixel px py = (n == 1) := by
  rw [State.debugSet]
  split
  next h => exact h
  next h =>
    rw [State.pixel_flipPixel, decide_eq_true ⟨rfl, rfl⟩, Bool.xor_true]
    exact (Bool.eq_not_of_ne (Ne.symm h)).symm

theorem pixel_debugSet_frame (px : Fin 64) (py : Fin 32) (n : Nat) :
    OnlyChanges [.pixel px py] s (s.debugSet (.pixel px py) n) := by
  rw [State.debugSet]
  split
  · exact .refl _ s
  · exact flipPixel_frame s px py

end

end Sys2Proof.Machine

open Sys2Proof Sys2Proof.Machine

/-- Settles O20: fault entry writes the code of `faultOf`, and an instruction that does not fault keeps FAULT = 0. -/
theorem faultsExactlyUnderTheirConditions : Obligations.FaultsExactlyUnderTheirConditions := by
  intro i s hf
  by_cases hi : faultOf i s = .noFault
  · obtain ⟨t, ht, -⟩ := exec_places s i
    obtain ⟨hsame, -⟩ := exec_sameRecord hi ht
    exact ⟨t, ht, (hsame.trans hf).trans hi.symm⟩
  · exact ⟨_, exec_of_faultOf_ne hi, rfl⟩

/-- Settles O21: a step that ends faulted did not leave the record alone, so it added the record and nothing else. -/
theorem faultEntryIsPrecise : Obligations.FaultEntryIsPrecise := by
  intro s t hf h ht
  obtain ⟨hsame, -⟩ | ⟨c, -, rfl⟩ := step_record_cases hf h
  · exact absurd (hsame.trans hf) ht
  · rfl

/-- Settles O58: memory by the handlers' canonical form, the record by the two things a step can do to it. -/
theorem stepKeepsTheInvariant : Obligations.StepKeepsTheInvariant :=
  fun _ _ ⟨hwf, hrecord⟩ h => ⟨step_wf h hwf, step_recordTrue h hrecord⟩

/-- Settles O54: `Place.size` gives every place the bound of R247, and each place has its read after write and its
frame. -/
theorem debugWriteMustFit : Obligations.DebugWriteMustFit := by
  intro s
  refine ⟨fun x => .of_set rfl fun n hn => ⟨?reg, setReg_frame s x _⟩,
    .of_set rfl fun n hn => ⟨?dt, setDt_frame s _⟩, .of_set rfl fun n hn => ⟨?st, setSt_frame s _⟩,
    fun a => .of_set rfl fun n hn => ⟨?byte, memWriteAt_frame s a _⟩,
    .of_set rfl fun n hn => ⟨?index, setIndex_frame s _⟩, .of_set rfl fun n hn => ⟨?pc, setPc_frame s _⟩,
    fun j => .of_set rfl fun n hn => ⟨?slot, setSlot_frame s j _⟩, .of_set rfl fun n hn => ⟨?sp, setSp_frame s _⟩,
    fun px py => .of_set rfl fun n hn => ⟨?pixel, pixel_debugSet_frame s px py n⟩,
    fun k => .of_set rfl fun n hn => ⟨?key, setKey_frame s k _⟩, ?record⟩
  case reg => exact (congrArg BitVec.toNat (s.reg_setReg_self x _)).trans (Nat.mod_eq_of_lt hn)
  case byte =>
    rw [State.debugSet, State.memRead_memWrite, if_pos rfl]
    exact Nat.mod_eq_of_lt hn
  case slot => exact (congrArg BitVec.toNat (Vector.getElem_set_self j.isLt)).trans (Nat.mod_eq_of_lt hn)
  case pixel => rw [pixel_debugSet, toNat_beq_one hn]
  case key => exact (congrArg Bool.toNat (Vector.getElem_set_self k.isLt)).trans (toNat_beq_one hn)
  case record => simp [State.debugWrite, Place.size]
  case dt | st | index | pc | sp => exact Nat.mod_eq_of_lt hn

end

section
/-! SUPPORT. The family of 70_reset_and_hazards.md: what a reset and a load leave; how DT falls over a run; the step of
a parked engine; and what every move of the engine or of the host keeps. -/

namespace Sys2Proof.Machine

/-! ## Reset and load (70_reset_and_hazards.md R261 to R264) -/

theorem Memory.base_of_font (font : Font) (d : Fin 16) (k : Fin 5) :
    Memory.base font (5 * d.val + k.val) = font[d][k] := by
  have hd : (5 * d.val + k.val) / 5 = d.val := by omega
  have hk : (5 * d.val + k.val) % 5 = k.val := by omega
  rw [Memory.base, dif_pos (by omega)]
  simp only [hd, hk, Fin.getElem_fin]

theorem Memory.base_above_font (font : Font) {a : Nat} (ha : 80 ≤ a) : Memory.base font a = 0 :=
  dif_neg (Nat.not_lt.2 ha)

section

variable (s : State) {rom : List Byte}

theorem State.memRead_resetEngine {a : Nat} (ha : a < 4096) :
    s.resetEngine.memRead a = Memory.base s.config.font a :=
  congrArg (Memory.base s.config.font) (Nat.mod_eq_of_lt ha)

theorem State.load_of_fits (h : rom.length ≤ 3584) : s.load rom = (.ok, s.resetEngine.storeBytes 0x200 rom) :=
  if_neg (Nat.not_lt.2 h)

theorem State.load_of_oversized (h : 3584 < rom.length) : s.load rom = (.capacityExceeded, s) := if_pos h

/-- What a reset keeps is the parameters and the random input, so it leaves nothing else of the state before. -/
theorem State.resetEngine_congr {s s' : State} (hc : s.config = s'.config) (hq : s.rndQueue = s'.rndQueue)
    (hn : s.rndDraws = s'.rndDraws) : s.resetEngine = s'.resetEngine := by
  rw [State.resetEngine, hc, hq, hn]
  rfl

theorem State.resetEngine_inv : s.resetEngine.Inv := ⟨Memory.wf_nil _, rfl, rfl⟩

end

/-! ## The delay timer over a run (70_reset_and_hazards.md R270) -/

section

variable {s t : State}

/-- DT is among the places an instruction can change for LD DT,Vx only. -/
theorem delayTimer_notMem_writes {i : Instr} (s : State) (hi : ∀ x, i ≠ .ldDtVx x) :
    Place.delayTimer ∉ writes i s := by
  cases i with
  | ldDtVx x => exact absurd rfl (hi x)
  | callAddr nnn => by_cases h : s.sp = 16 <;> simp [writes, h, faultPlaces]
  | cls | ret | skpVx x | sknpVx x | drwVxVyN x y n => simp [writes, allPixels, faultPlaces]
  | ldBVx x | ldMemVx x | ldVxMem x => simp [writes, State.block, regsTo]
  | _ => simp [writes]

theorem exec_dt {i : Instr} (h : exec i s = .next t) (hi : ∀ x, i ≠ .ldDtVx x) : t.dt = s.dt :=
  BitVec.eq_of_toNat_eq ((exec_onlyPlaces h).1 .delayTimer (delayTimer_notMem_writes s hi))

theorem unknownOpcode_dt (w : Word) (s : State) : (unknownOpcode w s).dt = s.dt := by
  unfold unknownOpcode; split <;> rfl

/-- A completed step under per_step that executes no LD DT,Vx lowers DT by 1 while above zero. -/
theorem step_dt (h : step s = .next t) (ht : t.fault = .noFault) (hper : s.config.timerSource = .perStep)
    (hld : ∀ x, decode s.fetchWord ≠ some (.ldDtVx x)) : t.dt.toNat = s.dt.toNat - 1 := by
  obtain ⟨hne, rfl⟩ | ⟨-, u, rfl, hu⟩ := step_cases h
  · exact absurd ht hne
  · have hkept : u.dt = s.dt ∧ u.config = s.config := by
      obtain ⟨-, rfl⟩ | ⟨i, hd, hexec⟩ := hu
      · exact ⟨unknownOpcode_dt _ _, unknownOpcode_config _ _⟩
      · have hdt := exec_dt hexec fun x hi => hld x (hi ▸ hd)
        exact ⟨hdt.trans s.advance_dt, (exec_config hexec).trans s.advance_config⟩
    obtain ⟨hdt, hconfig⟩ := hkept
    rw [(u.endStep_dt_by_source (u.endStep_fault ▸ ht)).1 (hconfig ▸ hper), hdt]

/-- A run that ends with no fault began with none. -/
theorem noFault_of_run {k : Nat} (h : Host.Core.run Sys2Proof.core k s = .next t) (ht : t.fault = .noFault) :
    s.fault = .noFault := by
  by_contra hf
  obtain ⟨hrun, -⟩ := faultedEngineNeverMoves s k hf
  obtain rfl := Host.Outcome.next.inj (hrun.symm.trans h)
  exact hf ht

end

/-! ## Parked (70_reset_and_hazards.md R274) -/

section

variable {s t : State}

/-- The timers have no part in being parked. -/
theorem State.Parked.of_timers (hs : s.Parked) (h : OnlyChanges [.delayTimer, .soundTimer] s t) : t.Parked := by
  obtain ⟨hf, nnn, hd, hnnn⟩ := hs
  refine ⟨(h.fault_eq (by simp)).trans hf, nnn, ?_, ?_⟩
  · rw [h.fetchWord_eq (by simp) (by simp), hd]
  · rw [h.pc_eq (by simp), hnnn]

/-- The jump takes PC back to where it was, so the step of a parked engine moves the timers alone. -/
theorem State.Parked.step_answers (hs : s.Parked) :
    ∃ t, step s = .next t ∧ OnlyChanges [.delayTimer, .soundTimer] s t := by
  obtain ⟨hf, nnn, hd, hnnn⟩ := hs
  have hframe : OnlyChanges [.pc, .delayTimer, .soundTimer] s (s.advance.setPc (zextAddr nnn)).endStep :=
    (setPc_frame s.advance _).of_handler.mono (by simp)
  have hpc : (zextAddr nnn).toNat = s.pc.toNat := (zextAddr_toNat nnn).trans hnnn
  exact ⟨_, step_of_decoded hf hd rfl, hframe.drop (by simpa [State.debugRead] using hpc)⟩

end

/-! ## Moves (70_reset_and_hazards.md R271, 60_exceptions.md R249) -/

section

variable {s t : State} {m : Move}

theorem eq_tick_of_move (h : s.move .tick = .next t) : t = s.tick := by
  simp only [State.move] at h
  split at h <;> cases h
  rfl

theorem eq_debugSet_of_move {p : Place} {n : Nat} (h : s.move (.debugWrite p n) = .next t) : t = s.debugSet p n := by
  simp only [State.move, State.debugWrite] at h
  split at h
  · cases h
  · split at h <;> cases h
    rfl

/-- The state holds the parameters `c`, and its memory is in canonical form under them. -/
def State.CanonicalUnder (c : Config) (s : State) : Prop := Memory.wf s.config.font s.mem ∧ s.config = c

section

variable {c : Config}

theorem State.CanonicalUnder.storeBytes (h : s.CanonicalUnder c) (a : Nat) (bs : List Byte) :
    (s.storeBytes a bs).CanonicalUnder c :=
  ⟨s.wf_storeBytes a bs h.1, (s.storeBytes_config a bs).trans h.2⟩

theorem State.CanonicalUnder.load (h : s.CanonicalUnder c) (rom : List Byte) : (s.load rom).2.CanonicalUnder c := by
  obtain hover | hfits := Nat.lt_or_ge 3584 rom.length
  · rwa [s.load_of_oversized hover]
  · have hreset : s.resetEngine.CanonicalUnder c := ⟨Memory.wf_nil _, h.2⟩
    rw [s.load_of_fits hfits]
    exact hreset.storeBytes 0x200 rom

theorem State.CanonicalUnder.tick (h : s.CanonicalUnder c) : s.tick.CanonicalUnder c := by
  unfold State.tick
  split <;> exact h

theorem State.CanonicalUnder.debugSet (h : s.CanonicalUnder c) (p : Place) (n : Nat) :
    (s.debugSet p n).CanonicalUnder c := by
  cases p with
  | byte a => exact h.storeBytes a.val [BitVec.ofNat 8 n]
  | pixel px py =>
    rw [State.debugSet]
    split <;> exact h
  | _ => exact h

/-- Every move, a debug write too, keeps the parameters and the canonical form of memory. -/
theorem State.CanonicalUnder.move (hs : s.CanonicalUnder c) (h : s.move m = .next t) : t.CanonicalUnder c := by
  cases m with
  | step =>
    obtain ⟨hwf, hconfig⟩ := hs
    exact ⟨step_wf h hwf, (noStepWritesKeypadOrParameters s t h).2.trans hconfig⟩
  | load rom =>
    obtain rfl := Host.Outcome.next.inj h
    exact hs.load rom
  | setKey k b | supplyRnd b =>
    obtain rfl := Host.Outcome.next.inj h
    exact hs
  | tick =>
    obtain rfl := eq_tick_of_move h
    exact hs.tick
  | debugWrite p n =>
    obtain rfl := eq_debugSet_of_move h
    exact hs.debugSet p n

end

/-- The state `s` with what set_key, a tick and a supplied random byte write: the keypad, the timers, the queue. -/
def State.withInputs (s : State) (keys : Vector Bool 16) (dt st : Byte) (q : List Byte) : State :=
  { s with keys := keys, dt := dt, st := st, rndQueue := q }

/-- The host's inputs have no part in the truth of the fault record. -/
theorem State.RecordTrue.withInputs (hs : s.RecordTrue) (keys : Vector Bool 16) (dt st : Byte) (q : List Byte) :
    (s.withInputs keys dt st q).RecordTrue := by
  have hcause : ∀ i, faultOf i (s.withInputs keys dt st q) = faultOf i s :=
    fun i => faultOf_congr i rfl rfl rfl rfl rfl
  unfold State.RecordTrue
  simp only [hcause]
  exact hs

theorem State.RecordTrue.load (hs : s.RecordTrue) (rom : List Byte) : (s.load rom).2.RecordTrue := by
  obtain hover | hfits := Nat.lt_or_ge 3584 rom.length
  · rwa [s.load_of_oversized hover]
  · rw [s.load_of_fits hfits, State.recordTrue_of_noFault (State.storeBytes_fault _ _ _)]
    exact ⟨State.storeBytes_faultPc _ _ _, State.storeBytes_faultOp _ _ _⟩

theorem State.RecordTrue.tick (hs : s.RecordTrue) : s.tick.RecordTrue := by
  unfold State.tick
  split
  · exact hs.withInputs s.keys _ _ s.rndQueue
  · exact hs

/-- Every move but a debug write keeps the fault record true. -/
theorem State.RecordTrue.move (hs : s.RecordTrue) (h : s.move m = .next t) (hm : ∀ p n, m ≠ .debugWrite p n) :
    t.RecordTrue := by
  cases m with
  | step => exact step_recordTrue h hs
  | load rom =>
    obtain rfl := Host.Outcome.next.inj h
    exact hs.load rom
  | setKey k b =>
    obtain rfl := Host.Outcome.next.inj h
    exact hs.withInputs (s.keys.set k b) s.dt s.st s.rndQueue
  | supplyRnd b =>
    obtain rfl := Host.Outcome.next.inj h
    exact hs.withInputs s.keys s.dt s.st (s.rndQueue ++ [b])
  | tick =>
    obtain rfl := eq_tick_of_move h
    exact hs.tick
  | debugWrite p n => exact absurd rfl (hm p n)

/-- What holds of a state and is kept by every move of the list holds after all of them; a refused move changes
nothing. -/
theorem moves_induction (P : State → Prop) (ms : List Move)
    (hP : ∀ m ∈ ms, ∀ s t, P s → s.move m = .next t → P t) (hs : P s) : P (s.moves ms) := by
  induction ms generalizing s with
  | nil => exact hs
  | cons m ms ih =>
    obtain ⟨hm, hms⟩ := List.forall_mem_cons.1 hP
    rw [State.moves]
    split
    next t ht => exact ih hms (hm s t hs ht)
    next => exact ih hms hs
    next => exact ih hms hs

end

end Sys2Proof.Machine

open Sys2Proof Sys2Proof.Machine

/-- Settles O60: memory and the parameters are kept by every move, the fault record by every move but a debug
write, and the list of moves by induction. -/
theorem everyInterleavingKeepsTheInvariant : Obligations.EveryInterleavingKeepsTheInvariant := by
  intro ms s ⟨hwf, hrecord⟩
  obtain ⟨hwf', hconfig⟩ : (s.moves ms).CanonicalUnder s.config :=
    moves_induction (State.CanonicalUnder s.config) ms (fun _ _ _ _ hs h => hs.move h) ⟨hwf, rfl⟩
  refine ⟨hwf', hconfig, fun hdebug => ⟨hwf', ?_⟩⟩
  refine moves_induction State.RecordTrue ms (fun m hm _ _ hs h => hs.move h fun p n e => ?_) hrecord
  exact hdebug p n (e ▸ hm)

/-- Settles O44: by induction over the steps, each of which completes and lowers DT by one. -/
theorem delayTimerCountsCompletedSteps : Obligations.DelayTimerCountsCompletedSteps := by
  intro k
  induction k with
  | zero =>
    intro s t _ hrun _ _
    obtain rfl := Host.Outcome.next.inj hrun
    rfl
  | succ k ih =>
    intro s t hper hrun ht hld
    obtain ⟨u, hstep, hrest⟩ := run_succ_inv k hrun
    have hconfig : u.config = s.config := (noStepWritesKeypadOrParameters s u hstep).2
    have hfirst : u.dt.toNat = s.dt.toNat - 1 :=
      step_dt hstep (noFault_of_run hrest ht) hper (hld 0 s k.succ_pos rfl)
    have hlater := ih u t (hconfig ▸ hper) hrest ht fun j v hj hv =>
      hld (j + 1) v (Nat.succ_lt_succ hj) ((run_succ j hstep).trans hv)
    omega

/-- Settles O50: every field is written by the reset, and memory, which lists nothing, reads as its base. -/
theorem resetSetsEveryPlace : Obligations.ResetSetsEveryPlace := by
  refine ⟨fun s => ⟨fun k => ?_, rfl, rfl, rfl, rfl, rfl, fun px py => ?_, rfl, rfl, rfl, fun d k => ?_,
    fun a hfont ha => ?_⟩, rfl⟩
  · simp [State.reg, State.resetEngine, State.reset]
  · simp [State.pixel, State.resetEngine, State.reset]
  · rw [s.memRead_resetEngine (by omega), Memory.base_of_font]
  · rw [s.memRead_resetEngine ha, Memory.base_above_font _ hfont]

/-- Settles O51: the load is a reset followed by one store of the ROM at 0x200. -/
theorem loadResetsAndPlacesTheRom : Obligations.LoadResetsAndPlacesTheRom := by
  intro s rom hfits
  rw [s.load_of_fits hfits]
  refine ⟨rfl, fun k b hb => ?_, fun a ha hout => ?_, storeBytes_frame s.resetEngine 0x200 rom⟩
  · obtain ⟨hk, rfl⟩ := List.getElem?_eq_some_iff.1 hb
    exact State.memRead_storeBytes _ _ _ _ (by omega) hk
  · exact State.memRead_storeBytes_of_ne _ _ _ _ fun k hk => by omega

/-- Settles O57: being parked depends on nothing that the step of a parked engine moves. -/
theorem parkedStateStaysParked : Obligations.ParkedStateStaysParked := by
  intro s k hs
  refine run_induction (fun t => t.Parked ∧ OnlyChanges [.delayTimer, .soundTimer] s t) ?_ k ⟨hs, .refl _ s⟩
  rintro t ⟨ht, hframe⟩
  obtain ⟨u, hstep, htimers⟩ := ht.step_answers
  exact ⟨u, hstep, ht.of_timers htimers, hframe.trans htimers⟩

/-- Settles O52: the capacity check comes first. -/
theorem oversizedRomChangesNothing : Obligations.OversizedRomChangesNothing :=
  fun s _ hover => s.load_of_oversized hover

/-- Settles O53: the two engines are reset to one state, and the ROM is stored over it. -/
theorem loadLeaksNothing : Obligations.LoadLeaksNothing := by
  intro s s' rom hfits hc hq hn
  rw [s.load_of_fits hfits, s'.load_of_fits hfits, State.resetEngine_congr hc hq hn]

/-- Settles O59: the state after reset, under any parameters, is what a reset leaves of itself. -/
theorem resetMeetsTheInvariant : Obligations.ResetMeetsTheInvariant :=
  fun c => State.resetEngine_inv { State.reset with config := c }

end
